-- ==== Sys2Proof/Word.lean ====
section
/-! DEFINITION. The word and byte types of the machine (00_scope.md R6). -/

namespace Sys2Proof

/-- A word: 16 bits, bit 15 the most significant (R6). -/
abbrev Word := BitVec 16

/-- A byte of the console port (R21, R22), of the program image (R44) and of a memory cell. -/
abbrev Byte := BitVec 8

end Sys2Proof
end

