-- ==== Sys2Proof/Config.lean ====
section
/-! DEFINITION. The parameters of the machine with the value this hardware takes (00_scope.md R5).
`EA_POLICY` is the one parameter that the state carries (log 3). -/

namespace Sys2Proof

/-- `EA_POLICY`: what an effective address outside 0x0000 to 0xFFFF does (R5, R36). -/
inductive EaPolicy where
  | fault
  | wrap
deriving DecidableEq, Repr

namespace Config

/-- `PC_START` (R5, R210; the number from §8, log 14). -/
def pcStart : Word := 0x3000#16

/-- `COND_RESET` (R5, R24; log 13). -/
def condReset : BitVec 3 := 0b000#3

/-- `EA_POLICY` of this hardware (R5). -/
def eaPolicy : EaPolicy := .fault

/-- `FL_N`, Negative (R5, R14; PRESUMED by the spec, log 13). -/
def flN : BitVec 3 := 0b100#3

/-- `FL_Z`, Zero (R5, R14; log 13). -/
def flZ : BitVec 3 := 0b010#3

/-- `FL_P`, Positive (R5, R14; log 13). -/
def flP : BitVec 3 := 0b001#3

/-- `TV_GETC` (R5; PRESUMED by the spec, GK5, log 12). -/
def tvGetc : BitVec 8 := 0x20#8

/-- `TV_OUT` (R5; log 12). -/
def tvOut : BitVec 8 := 0x21#8

/-- `TV_PUTS` (R5; log 12). -/
def tvPuts : BitVec 8 := 0x22#8

/-- `TV_IN` (R5; log 12). -/
def tvIn : BitVec 8 := 0x23#8

/-- `TV_PUTSP` (R5; log 12). -/
def tvPutsp : BitVec 8 := 0x24#8

/-- `TV_HALT` (R5; log 12). -/
def tvHalt : BitVec 8 := 0x25#8

/-- `IN_PROMPT`: the 19 bytes of the text "Enter a character: " (R5, R145; GK10, log 12). -/
def inPrompt : List Byte :=
  [0x45#8, 0x6E#8, 0x74#8, 0x65#8, 0x72#8, 0x20#8, 0x61#8, 0x20#8, 0x63#8, 0x68#8,
   0x61#8, 0x72#8, 0x61#8, 0x63#8, 0x74#8, 0x65#8, 0x72#8, 0x3A#8, 0x20#8]

end Config

end Sys2Proof
end

