-- ==== Sys2Proof/Syntax.lean ====
section
/-! DEFINITION. The instructions: one constructor per row of spec/opcode_table.json (30_encoding.md R55),
with the fields of R53. Register numbers are names; the other fields are the bits of the field as they
stand, and the meanings say how each is read. -/

namespace Sys2Proof

/-- The eight general registers R0 to R7 (10_state.md R10). -/
inductive Reg where
  | r0 | r1 | r2 | r3 | r4 | r5 | r6 | r7
deriving DecidableEq, Repr

/-- The twenty-five instruction forms of R55. -/
inductive Instr where
  /-- BR, requests `n`, `z`, `p` and PCoffset9 (R130). -/
  | br (n z p : Bool) (off : BitVec 9)
  /-- ADD DR, SR1, SR2 (R100). -/
  | addReg (dr sr1 sr2 : Reg)
  /-- ADD DR, SR1, imm5 (R101). -/
  | addImm (dr sr1 : Reg) (imm : BitVec 5)
  /-- LD DR, PCoffset9 (R110). -/
  | ld (dr : Reg) (off : BitVec 9)
  /-- ST SR, PCoffset9 (R114). -/
  | st (sr : Reg) (off : BitVec 9)
  /-- JSR PCoffset11 (R132). -/
  | jsr (off : BitVec 11)
  /-- JSRR BaseR (R133). -/
  | jsrr (base : Reg)
  /-- AND DR, SR1, SR2 (R102). -/
  | andReg (dr sr1 sr2 : Reg)
  /-- AND DR, SR1, imm5 (R103). -/
  | andImm (dr sr1 : Reg) (imm : BitVec 5)
  /-- LDR DR, BaseR, offset6 (R112). -/
  | ldr (dr base : Reg) (off : BitVec 6)
  /-- STR SR, BaseR, offset6 (R116). -/
  | str (sr base : Reg) (off : BitVec 6)
  /-- RTI (R149). -/
  | rti
  /-- NOT DR, SR (R104). -/
  | not (dr sr : Reg)
  /-- LDI DR, PCoffset9 (R111). -/
  | ldi (dr : Reg) (off : BitVec 9)
  /-- STI SR, PCoffset9 (R115). -/
  | sti (sr : Reg) (off : BitVec 9)
  /-- JMP BaseR; RET when BaseR is R7 (R131). -/
  | jmp (base : Reg)
  /-- RES, the reserved opcode 13 (R150). -/
  | res
  /-- LEA DR, PCoffset9 (R113). -/
  | lea (dr : Reg) (off : BitVec 9)
  /-- TRAP, service GETC (R142). -/
  | trapGetc
  /-- TRAP, service OUT (R143). -/
  | trapOut
  /-- TRAP, service PUTS (R144). -/
  | trapPuts
  /-- TRAP, service IN (R145). -/
  | trapIn
  /-- TRAP, service PUTSP (R146). -/
  | trapPutsp
  /-- TRAP, service HALT (R147). -/
  | trapHalt
  /-- TRAP with any other trapvect8 (R148). -/
  | trapOther (vect : BitVec 8)
deriving DecidableEq, Repr

end Sys2Proof
end

