-- ==== Sys2Proof/WellFormed.lean ====
section
/-! DEFINITION. Which terms of `Instr` are instructions. Every field has exactly the width of R53, so the one
check is that the row "any other trapvect8" of R55 does not hold one of the six service numbers. -/

namespace Sys2Proof

/-- The trapvect8 values that name a service (R140, R55). -/
def isServiceVector (v : BitVec 8) : Bool :=
  v == Config.tvGetc || v == Config.tvOut || v == Config.tvPuts || v == Config.tvIn ||
    v == Config.tvPutsp || v == Config.tvHalt

/-- The check of a term: only `trapOther` of a service number is ill-formed (R55, last row). -/
def wellFormed : Instr → Bool
  | .br _ _ _ _ | .addReg _ _ _ | .addImm _ _ _ | .ld _ _ | .st _ _ | .jsr _ | .jsrr _
  | .andReg _ _ _ | .andImm _ _ _ | .ldr _ _ _ | .str _ _ _ | .rti | .not _ _ | .ldi _ _
  | .sti _ _ | .jmp _ | .res | .lea _ _ => true
  | .trapGetc | .trapOut | .trapPuts | .trapIn | .trapPutsp | .trapHalt => true
  | .trapOther v => !isServiceVector v

end Sys2Proof
end

