-- ==== Sys2Proof/Decode.lean ====
section
/-! DEFINITION. The decoder of one 16-bit word (30_encoding.md R50 to R59), total on words (R59), and the
encoder of R62. Bytes come high byte first, as a word stands in the program image (R44). -/

namespace Sys2Proof

/-- The sixteen opcodes, `IR[15:12]` (R51, R85). -/
inductive Opcode where
  | br | add | ld | st | jsr | and | ldr | str | rti | not | ldi | sti | jmp | res | lea | trap
deriving DecidableEq, Repr

/-- The opcode with a given number (R85). -/
def opcodeOfNat : Nat → Opcode
  | 0 => .br
  | 1 => .add
  | 2 => .ld
  | 3 => .st
  | 4 => .jsr
  | 5 => .and
  | 6 => .ldr
  | 7 => .str
  | 8 => .rti
  | 9 => .not
  | 10 => .ldi
  | 11 => .sti
  | 12 => .jmp
  | 13 => .res
  | 14 => .lea
  | _ => .trap

/-- `IR[15:12]` as a handler's name (R51, R84). -/
def opcodeOf (w : Word) : Opcode := opcodeOfNat (w.extractLsb' 12 4).toNat

/-- The register a 3-bit field names (R11, R53). -/
def regOfBits (b : BitVec 3) : Reg :=
  match b.toNat with
  | 0 => .r0
  | 1 => .r1
  | 2 => .r2
  | 3 => .r3
  | 4 => .r4
  | 5 => .r5
  | 6 => .r6
  | _ => .r7

/-- The 3-bit number of a register (R53). -/
def regBits : Reg → BitVec 3
  | .r0 => 0#3
  | .r1 => 1#3
  | .r2 => 2#3
  | .r3 => 3#3
  | .r4 => 4#3
  | .r5 => 5#3
  | .r6 => 6#3
  | .r7 => 7#3

/-- The register field `IR[11:9]`: DR, or SR of the stores (R53). -/
def fieldHigh (w : Word) : Reg := regOfBits (w.extractLsb' 9 3)

/-- The register field `IR[8:6]`: SR1, BaseR, or SR of NOT (R53). -/
def fieldMid (w : Word) : Reg := regOfBits (w.extractLsb' 6 3)

/-- The register field `IR[2:0]`: SR2 (R53). -/
def fieldLow (w : Word) : Reg := regOfBits (w.extractLsb' 0 3)

/-- The instruction of a TRAP word, by trapvect8 alone (R140, R55). -/
def decodeTrap (v : BitVec 8) : Instr :=
  if v = Config.tvGetc then .trapGetc
  else if v = Config.tvOut then .trapOut
  else if v = Config.tvPuts then .trapPuts
  else if v = Config.tvIn then .trapIn
  else if v = Config.tvPutsp then .trapPutsp
  else if v = Config.tvHalt then .trapHalt
  else .trapOther v

/-- The decoder: the row of R55 that a word matches, with its fields of R53; total (R59), ignored bits not read (R56). -/
def decode (w : Word) : Instr :=
  match opcodeOf w with
  | .br => .br (w.getLsbD 11) (w.getLsbD 10) (w.getLsbD 9) (w.extractLsb' 0 9)
  | .add =>
    if w.getLsbD 5 then .addImm (fieldHigh w) (fieldMid w) (w.extractLsb' 0 5)
    else .addReg (fieldHigh w) (fieldMid w) (fieldLow w)
  | .ld => .ld (fieldHigh w) (w.extractLsb' 0 9)
  | .st => .st (fieldHigh w) (w.extractLsb' 0 9)
  | .jsr => if w.getLsbD 11 then .jsr (w.extractLsb' 0 11) else .jsrr (fieldMid w)
  | .and =>
    if w.getLsbD 5 then .andImm (fieldHigh w) (fieldMid w) (w.extractLsb' 0 5)
    else .andReg (fieldHigh w) (fieldMid w) (fieldLow w)
  | .ldr => .ldr (fieldHigh w) (fieldMid w) (w.extractLsb' 0 6)
  | .str => .str (fieldHigh w) (fieldMid w) (w.extractLsb' 0 6)
  | .rti => .rti
  | .not => .not (fieldHigh w) (fieldMid w)
  | .ldi => .ldi (fieldHigh w) (w.extractLsb' 0 9)
  | .sti => .sti (fieldHigh w) (w.extractLsb' 0 9)
  | .jmp => .jmp (fieldMid w)
  | .res => .res
  | .lea => .lea (fieldHigh w) (w.extractLsb' 0 9)
  | .trap => decodeTrap (w.extractLsb' 0 8)

/-- What the decoder of a byte sequence can refuse: no word is refused (R59), only a sequence too short to hold one (R50). -/
inductive DecodeError where
  /-- Fewer than the two bytes of one instruction word; safe: no word is misread. -/
  | truncated (count : Nat)
deriving DecidableEq, Repr

/-- What reading one instruction from bytes answers. -/
inductive DecodeResult where
  | decoded (i : Instr) (rest : List Byte)
  | rejected (e : DecodeError)
deriving DecidableEq, Repr

/-- One word from its bytes, bits 15:8 first (R44). -/
def wordOfBytes (hi lo : Byte) : Word := hi ++ lo

/-- Read one instruction from the front of a byte sequence in the image's byte order (R44, R50). -/
def decodeBytes : List Byte → DecodeResult
  | [] => .rejected (.truncated 0)
  | [_] => .rejected (.truncated 1)
  | hi :: lo :: rest => .decoded (decode (wordOfBytes hi lo)) rest

/-- The two bytes of a word in the image's byte order (R44). -/
def bytesOfWord (w : Word) : List Byte := [w.extractLsb' 8 8, w.extractLsb' 0 8]

/-- The instruction the decoder reads from a table row's bits: none unless the row is one 16-bit word (R50). -/
def decodeTableWord (nbits w : Nat) : Option Instr :=
  if nbits = 16 then
    match decodeBytes (bytesOfWord (BitVec.ofNat 16 w)) with
    | .decoded i _ => some i
    | .rejected _ => none
  else none

/-- The nzp field of BR, `IR[11:9]` (R53). -/
def nzpBits (n z p : Bool) : BitVec 3 := BitVec.ofBool n ++ BitVec.ofBool z ++ BitVec.ofBool p

/-- Format RRR: opcode, DR, SR1, mode 0, ignored 00, SR2 (R52). -/
def formatRRR (op : BitVec 4) (dr sr1 sr2 : Reg) : Word :=
  op ++ regBits dr ++ regBits sr1 ++ 0b000#3 ++ regBits sr2

/-- Format RRI: opcode, DR, SR1, mode 1, imm5 (R52). -/
def formatRRI (op : BitVec 4) (dr sr1 : Reg) (imm : BitVec 5) : Word :=
  op ++ regBits dr ++ regBits sr1 ++ 0b1#1 ++ imm

/-- Format RP9: opcode, R, PCoffset9 (R52). -/
def formatRP9 (op : BitVec 4) (r : Reg) (off : BitVec 9) : Word :=
  op ++ regBits r ++ off

/-- Format RB6: opcode, R, BaseR, offset6 (R52). -/
def formatRB6 (op : BitVec 4) (r base : Reg) (off : BitVec 6) : Word :=
  op ++ regBits r ++ regBits base ++ off

/-- Format JR: opcode, 000, BaseR, 000000 (R52). -/
def formatJR (op : BitVec 4) (base : Reg) : Word :=
  op ++ 0b000#3 ++ regBits base ++ 0b000000#6

/-- Format TV: opcode, ignored 0000, trapvect8 (R52). -/
def formatTV (v : BitVec 8) : Word := 0b1111#4 ++ 0b0000#4 ++ v

/-- The encoder: the canonical word of R62, from the formats of R52. -/
def encode : Instr → Word
  | .br n z p off => 0b0000#4 ++ nzpBits n z p ++ off
  | .addReg dr sr1 sr2 => formatRRR 0b0001#4 dr sr1 sr2
  | .addImm dr sr1 imm => formatRRI 0b0001#4 dr sr1 imm
  | .ld dr off => formatRP9 0b0010#4 dr off
  | .st sr off => formatRP9 0b0011#4 sr off
  | .jsr off => 0b01001#5 ++ off
  | .jsrr base => formatJR 0b0100#4 base
  | .andReg dr sr1 sr2 => formatRRR 0b0101#4 dr sr1 sr2
  | .andImm dr sr1 imm => formatRRI 0b0101#4 dr sr1 imm
  | .ldr dr base off => formatRB6 0b0110#4 dr base off
  | .str sr base off => formatRB6 0b0111#4 sr base off
  | .rti => 0b1000#4 ++ 0#12
  | .not dr sr => 0b1001#4 ++ regBits dr ++ regBits sr ++ 0b111111#6
  | .ldi dr off => formatRP9 0b1010#4 dr off
  | .sti sr off => formatRP9 0b1011#4 sr off
  | .jmp base => formatJR 0b1100#4 base
  | .res => 0b1101#4 ++ 0#12
  | .lea dr off => formatRP9 0b1110#4 dr off
  | .trapGetc => formatTV Config.tvGetc
  | .trapOut => formatTV Config.tvOut
  | .trapPuts => formatTV Config.tvPuts
  | .trapIn => formatTV Config.tvIn
  | .trapPutsp => formatTV Config.tvPutsp
  | .trapHalt => formatTV Config.tvHalt
  | .trapOther v => formatTV v

/-- The mask of an instruction's row of R55: the bits that select the row. -/
def rowMask : Instr → Word
  | .addReg _ _ _ | .addImm _ _ _ | .andReg _ _ _ | .andImm _ _ _ => 0xF020#16
  | .jsr _ | .jsrr _ => 0xF800#16
  | .trapGetc | .trapOut | .trapPuts | .trapIn | .trapPutsp | .trapHalt => 0xF0FF#16
  | .br _ _ _ _ | .ld _ _ | .st _ _ | .ldr _ _ _ | .str _ _ _ | .rti | .not _ _ | .ldi _ _
  | .sti _ _ | .jmp _ | .res | .lea _ _ | .trapOther _ => 0xF000#16

/-- The match value of an instruction's row of R55 (the service rows at the vector numbers of R5). -/
def rowMatch : Instr → Word
  | .br _ _ _ _ => 0x0000#16
  | .addReg _ _ _ => 0x1000#16
  | .addImm _ _ _ => 0x1020#16
  | .ld _ _ => 0x2000#16
  | .st _ _ => 0x3000#16
  | .jsr _ => 0x4800#16
  | .jsrr _ => 0x4000#16
  | .andReg _ _ _ => 0x5000#16
  | .andImm _ _ _ => 0x5020#16
  | .ldr _ _ _ => 0x6000#16
  | .str _ _ _ => 0x7000#16
  | .rti => 0x8000#16
  | .not _ _ => 0x9000#16
  | .ldi _ _ => 0xA000#16
  | .sti _ _ => 0xB000#16
  | .jmp _ => 0xC000#16
  | .res => 0xD000#16
  | .lea _ _ => 0xE000#16
  | .trapGetc => 0xF020#16
  | .trapOut => 0xF021#16
  | .trapPuts => 0xF022#16
  | .trapIn => 0xF023#16
  | .trapPutsp => 0xF024#16
  | .trapHalt => 0xF025#16
  | .trapOther _ => 0xF000#16

/-- The ignored bits of an instruction's format (R56). -/
def ignoredBits : Instr → Word
  | .addReg _ _ _ | .andReg _ _ _ => 0x0018#16
  | .not _ _ => 0x003F#16
  | .jsrr _ => 0x063F#16
  | .jmp _ => 0x0E3F#16
  | .trapGetc | .trapOut | .trapPuts | .trapIn | .trapPutsp | .trapHalt | .trapOther _ => 0x0F00#16
  | .rti | .res => 0x0FFF#16
  | .br _ _ _ _ | .addImm _ _ _ | .ld _ _ | .st _ _ | .jsr _ | .andImm _ _ _ | .ldr _ _ _
  | .str _ _ _ | .ldi _ _ | .sti _ _ | .lea _ _ => 0x0000#16

end Sys2Proof
end

