-- ==== Sys2Proof/Machine/State.lean ====
section
/-! DEFINITION. The state of the machine as plain data: everything 10_state.md names (R10 to R23, R25), the fetch
address of 40_instruction_cycle.md R82, and two fields of the model's own (`phase`, `eaPolicy`). -/

namespace Sys2Proof.Machine

/-- The eight general registers `x[0..7]` (R10). -/
structure RegFile where
  r0 : Word
  r1 : Word
  r2 : Word
  r3 : Word
  r4 : Word
  r5 : Word
  r6 : Word
  r7 : Word
deriving DecidableEq, Repr

/-- Memory as cells in one canonical form, `memWf` of Machine/Memory.lean: word `a` of the 65536 words (R23, R30) is
the cells `2a` (bits 15:8) and `2a+1` (bits 7:0); log 1. -/
abbrev Memory := List Host.Cell

/-- The reasons of an abnormal completion signal (R86, R170). -/
inductive AbnormalReason where
  | privilegedRti
  | reservedOpcode
  | unimplementedTrap (vect : BitVec 8)
deriving DecidableEq, Repr

/-- The latch `fault` (R19): `NoFault` or `MemoryFault(s)` with the out-of-range integer. -/
inductive FaultLatch where
  | noFault
  | memoryFault (s : Int)
deriving DecidableEq, Repr

/-- The services that can stand unfinished: GETC and IN on an empty input stream (R22, U6), PUTS and PUTSP
on a scan path with no zero word (R218, U7). -/
inductive Hold where
  | getc
  | inp
  | puts
  | putsp
deriving DecidableEq, Repr

/-- Where inside a step the engine is standing: the MODEL's own field (log 5, 6, 7). -/
inductive Phase where
  /-- Between two steps (R81). -/
  | ready
  /-- Blocked in `DebugEnter`, with the address of the message "hit breakpoint", or no message (R185). -/
  | inDebugEnter (message : Option Word)
  /-- `DebugEnter` has returned; actions 3 to 6 of the step are to come (R188). -/
  | resuming
  /-- A TRAP service that has not completed (R22, R218). -/
  | holding (h : Hold)
deriving DecidableEq, Repr

/-- The whole machine. -/
structure State where
  /-- `x[0..7]` (R10). -/
  regs : RegFile
  /-- `pc` (R12). -/
  pc : Word
  /-- `cond`: bit 2 is N, bit 1 is Z, bit 0 is P (R14). -/
  cond : BitVec 3
  /-- `IR` (R16). -/
  ir : Word
  /-- `running` (R17). -/
  running : Bool
  /-- `abnormal`, sticky (R18). -/
  abnormal : Bool
  /-- `abnormal_log`, oldest first: fetch address and reason (R18). -/
  abnormalLog : List (Word × AbnormalReason)
  /-- `fault`, sticky (R19). -/
  fault : FaultLatch
  /-- `debugger_enabled` (R20). -/
  debuggerEnabled : Bool
  /-- `debugger_steps` (R20); no width is given, so an integer (log 8). -/
  debuggerSteps : Int
  /-- The addresses whose `bp` bit is true, strictly rising (R20; log 17). -/
  breakpoints : List Word
  /-- `cout`, oldest byte first (R21). -/
  cout : List Byte
  /-- `cin`: the bytes the host has supplied and the core has not consumed, next one first (R22). -/
  cin : List Byte
  /-- `memory` (R23). -/
  mem : Memory
  /-- `a`, the fetch address: "kept for the pre-hook and for diagnostics" (R82). -/
  fetchAddr : Word
  /-- The MODEL's own field (log 5, 6, 7). -/
  phase : Phase
  /-- `EA_POLICY` (R5), fixed for the machine: no step changes it (log 3). -/
  eaPolicy : EaPolicy
deriving DecidableEq, Repr

/-- Why a step stops: never. Every instruction in every state has a next state: a memory fault is a
latched next state (R175), a stopped engine does nothing (R80), and a service that does not complete holds (R22);
so no constructor is raised by anyone and none exists (log 4). -/
inductive Fault : Type
deriving DecidableEq, Repr

/-- Why an instruction has no meaning. -/
inductive Refusal where
  /-- Raised by an arm of `exec` whose instruction has no meaning yet; no arm is left. Safe: the run stops by name. -/
  | notModelled (mnemonic : String)
deriving DecidableEq, Repr

/-- The three outcomes of one step of this machine. -/
abbrev Result := Host.Outcome State Fault Refusal

/-- Initialisation (R200, R24), with what the host and the parameters of R5 choose: the policy, the value of
`cond`, the debugger switch and the input it supplies. -/
def State.initialised (policy : EaPolicy) (cond : BitVec 3) (debugger : Bool) (input : List Byte) : State where
  regs := ⟨0#16, 0#16, 0#16, 0#16, 0#16, 0#16, 0#16, 0#16⟩
  pc := 0#16
  cond := cond
  ir := 0#16
  running := false
  abnormal := false
  abnormalLog := []
  fault := .noFault
  debuggerEnabled := debugger
  debuggerSteps := -1
  breakpoints := []
  cout := []
  cin := input
  mem := []
  fetchAddr := 0#16
  phase := .ready
  eaPolicy := policy

/-- The machine right after initialisation (R24, R200), parameters at the values of R5; the debugger off and no input
supplied (log 9). -/
def State.reset : State := State.initialised Config.eaPolicy Config.condReset false []

end Sys2Proof.Machine
end

