-- ==== Sys2Proof/Machine/Flags.lean ====
section
/-! DEFINITION. The condition code: `setcc` (40_instruction_cycle.md R90) and the test of BR (43_control.md R130). -/

namespace Sys2Proof.Machine

/-- The value `setcc(v)` gives `cond` (R90). -/
def ccOf (v : Word) : BitVec 3 :=
  if v.msb then Config.flN else if v = 0#16 then Config.flZ else Config.flP

/-- `setcc(v)` (R90). -/
def setcc (v : Word) (s : State) : State := { s with cond := ccOf v }

/-- BR's condition: `(IR[11:9] AND cond) != 0b000` (R130). -/
def branchTaken (n z p : Bool) (cond : BitVec 3) : Bool := (nzpBits n z p &&& cond) != 0#3

end Sys2Proof.Machine
end

