-- ==== Sys2Proof/Machine/Memory.lean ====
section
/-! DEFINITION. Reading and writing memory (20_memory.md R30 to R35). `readByte` and `writeByte` keep the cells,
`readWord` (MemRead) and `writeWord` (MemWrite) are the machine's only accesses; the layout of a word in two cells is
decided here, once (log 1). -/

namespace Sys2Proof.Machine

/-- What a cell that no entry lists reads as: memory is zeroed at initialisation (R24, R31). -/
def unlistedByte : Byte := 0#8

/-- The number of cells: two for each of the 65536 words (R30). -/
def cellCount : Nat := 131072

/-- The canonical form from address `lo` on: addresses strictly rising, inside the memory, no entry equal to what an
unlisted cell reads as. -/
def memWfFrom (lo : Nat) : Memory → Bool
  | [] => true
  | (a, v) :: rest =>
    decide (lo ≤ a) && decide (a < cellCount) && (v != unlistedByte) && memWfFrom (a + 1) rest

/-- The canonical form of memory. -/
def memWf (m : Memory) : Bool := memWfFrom 0 m

/-- One cell. -/
def readByte : Memory → Nat → Byte
  | [], _ => unlistedByte
  | (b, v) :: rest, a => if a = b then v else readByte rest a

/-- An entry in front of the list, left out where the value is what an unlisted cell reads as. -/
def consCell (a : Nat) (v : Byte) (m : Memory) : Memory :=
  if v = unlistedByte then m else (a, v) :: m

/-- Set one cell, keeping the canonical form. -/
def writeByte : Memory → Nat → Byte → Memory
  | [], a, v => consCell a v []
  | (b, w) :: rest, a, v =>
    if a < b then consCell a v ((b, w) :: rest)
    else if a = b then consCell a v rest
    else (b, w) :: writeByte rest a v

/-- The cell of a word's bits 15:8. -/
def highCell (a : Word) : Nat := 2 * a.toNat

/-- The cell of a word's bits 7:0. -/
def lowCell (a : Word) : Nat := 2 * a.toNat + 1

/-- `MemRead(a)` (R31). -/
def readWord (m : Memory) (a : Word) : Word := readByte m (highCell a) ++ readByte m (lowCell a)

/-- `MemWrite(a, v)` (R32). -/
def writeWord (m : Memory) (a v : Word) : Memory :=
  writeByte (writeByte m (highCell a) (v.extractLsb' 8 8)) (lowCell a) (v.extractLsb' 0 8)

end Sys2Proof.Machine
end

