-- ==== Sys2Proof/Machine/Operands.lean ====
section
/-! DEFINITION. Operand forms: signed fields (00_scope.md R6, 40_instruction_cycle.md R89), wrapping pc-relative sums
(10_state.md R13) and the checked effective address (20_memory.md R36, R37). -/

namespace Sys2Proof.Machine

/-- `sext_N(field)`, the mathematical integer (R6, R89). -/
def sextInt {n : Nat} (field : BitVec n) : Int := field.toInt

/-- `sext16_N(field)`, the same value as a 16-bit word (R6, R89). -/
def sext16 {n : Nat} (field : BitVec n) : Word := field.signExtend 16

/-- `(pc + sext_N(field)) mod 65536`: the sums that wrap and never fault (R13, R37). -/
def pcRelative {n : Nat} (pc : Word) (field : BitVec n) : Word := pc + sext16 field

/-- What `EA` answers: an address, or the integer for which `MemoryFault` is raised (R36). -/
inductive EaResult where
  | address (a : Word)
  | outOfRange (s : Int)
deriving DecidableEq, Repr

/-- `0 <= s <= 65535`, the test of `EA` (R36). -/
def isAddress : Int → Bool
  | .ofNat n => decide (n < 65536)
  | .negSucc _ => false

/-- `EA(b, o)` under a policy (R36). -/
def effectiveAddress (policy : EaPolicy) (b : Word) (o : Int) : EaResult :=
  let s : Int := (b.toNat : Int) + o
  if isAddress s then .address (BitVec.ofInt 16 s)
  else
    match policy with
    | .fault => .outOfRange s
    | .wrap => .address (BitVec.ofInt 16 s)

end Sys2Proof.Machine
end

