-- ==== Sys2Proof/Machine/Ops.lean ====
section
/-! DEFINITION. The named operations the meanings share: registers, memory, console port, and the ONE place where a
handler's ending is interpreted (40_instruction_cycle.md R86, R87; 60_exceptions.md R171, R175). The machine has no
trap entry and no trap return (R180, R181), so there is no saved pc or status to write or restore. -/

namespace Sys2Proof.Machine

/-- `x[i]` of a register file (R7, R10). -/
def regRead (f : RegFile) : Reg → Word
  | .r0 => f.r0
  | .r1 => f.r1
  | .r2 => f.r2
  | .r3 => f.r3
  | .r4 => f.r4
  | .r5 => f.r5
  | .r6 => f.r6
  | .r7 => f.r7

/-- `x[i] <- v` of a register file (R7, R10). -/
def regWrite (f : RegFile) (v : Word) : Reg → RegFile
  | .r0 => { f with r0 := v }
  | .r1 => { f with r1 := v }
  | .r2 => { f with r2 := v }
  | .r3 => { f with r3 := v }
  | .r4 => { f with r4 := v }
  | .r5 => { f with r5 := v }
  | .r6 => { f with r6 := v }
  | .r7 => { f with r7 := v }

/-- `x[i]` (R7). -/
def getReg (r : Reg) (s : State) : Word := regRead s.regs r

/-- `x[i] <- v` (R7). -/
def setReg (r : Reg) (v : Word) (s : State) : State := { s with regs := regWrite s.regs v r }

/-- `pc <- t` (R7). -/
def setPc (t : Word) (s : State) : State := { s with pc := t }

/-- `x[DR] <- v` and then `setcc(v)`: how the seven flag-setting instructions end (R15, R90). -/
def writeDest (dr : Reg) (v : Word) (s : State) : State := setcc v (setReg dr v s)

/-- `MemRead(a)` (R31). -/
def loadWord (a : Word) (s : State) : Word := readWord s.mem a

/-- `MemWrite(a, v)` (R32). -/
def storeWord (a v : Word) (s : State) : State := { s with mem := writeWord s.mem a v }

/-- `x[7] <- pc`: the return address of JSR, JSRR and TRAP (R132, R133, R140). -/
def linkReturn (s : State) : State := setReg .r7 s.pc s

/-- `ConsoleOut` of several bytes in order (R21). -/
def consoleOut (bytes : List Byte) (s : State) : State := { s with cout := s.cout ++ bytes }

/-- The four endings of a handler (R86). -/
inductive Signal where
  | none
  | halt
  | abnormal (reason : AbnormalReason)
  | memoryFault (s : Int)
deriving DecidableEq, Repr

/-- `Halt`: clear `running` (R87). -/
def raiseHalt (s : State) : State := { s with running := false }

/-- `Abnormal(reason)`: set the sticky bit, log the fetch address and the reason; `running` stays (R87, R171). -/
def raiseAbnormal (reason : AbnormalReason) (s : State) : State :=
  { s with abnormal := true, abnormalLog := s.abnormalLog ++ [(s.fetchAddr, reason)] }

/-- `MemoryFault(i)`: latch the integer, clear `running` (R87, R175). -/
def raiseMemoryFault (i : Int) (s : State) : State :=
  { s with fault := .memoryFault i, running := false }

/-- Action 5 of the step: interpretation of the ending (R87). -/
def interpret : Signal → State → State
  | .none, s => s
  | .halt, s => raiseHalt s
  | .abnormal reason, s => raiseAbnormal reason s
  | .memoryFault i, s => raiseMemoryFault i s

/-- A handler that has changed the state to `s` and ends with a signal. -/
def complete (sig : Signal) (s : State) : Result := .next (interpret sig s)

/-- A service that does not complete: the engine stands in it (R22, R218; log 5, 6). -/
def hold (h : Hold) (s : State) : Result := .next { s with phase := .holding h }

/-- A handler with one checked data address: `EA` precedes every access and every write (R36, R117). -/
def withAddress (b : Word) (o : Int) (s : State) (handler : Word → State) : Result :=
  match effectiveAddress s.eaPolicy b o with
  | .address ea => complete .none (handler ea)
  | .outOfRange i => complete (.memoryFault i) s

end Sys2Proof.Machine
end

