-- ==== Sys2Proof/Machine/Cycle.lean ====
section
/-! DEFINITION. The actions of the step around the handler (40_instruction_cycle.md R81 to R88) and the two debugger
hooks (60_exceptions.md R185 to R189). -/

namespace Sys2Proof.Machine

/-- Action 1, fetch: `a <- pc; IR <- MemRead(a)` (R82). -/
def fetch (s : State) : State := { s with fetchAddr := s.pc, ir := loadWord s.pc s }

/-- `bp[a]` (R20). -/
def isBreakpoint (a : Word) (s : State) : Bool := s.breakpoints.contains a

/-- `DebugEnter(message)`: the engine is blocked until the host returns (R185; log 7). -/
def debugEnter (message : Option Word) (s : State) : State := { s with phase := .inDebugEnter message }

/-- Action 2, the pre-hook (R186). -/
def preHook (s : State) : State :=
  if s.debuggerEnabled then
    if isBreakpoint s.fetchAddr s then debugEnter (some s.fetchAddr) s
    else if s.debuggerSteps = 0 then debugEnter none { s with debuggerSteps := -1 }
    else s
  else s

/-- Action 3, pc advance, modulo 65536 (R83). -/
def advancePc (s : State) : State := { s with pc := s.pc + 1#16 }

/-- Action 4, decode: the instruction that `IR` holds (R84). -/
def currentInstr (s : State) : Instr := decode s.ir

/-- Action 6, the post-hook (R187). -/
def postHook (s : State) : State :=
  if s.debuggerEnabled && decide (s.debuggerSteps > 0) then { s with debuggerSteps := s.debuggerSteps - 1 } else s

/-- The engine stands between two steps again, or carries on inside one. -/
def toReady (s : State) : State := { s with phase := .ready }

/-- The end of the step: the post-hook runs once the instruction has completed; a held one has not (R22, R81, R187). -/
def retire : Result → Result
  | .next s => .next (if s.phase = .ready then postHook s else s)
  | .fault r => .fault r
  | .refused r => .refused r

end Sys2Proof.Machine
end

