-- ==== Sys2Proof/Machine/Alu.lean ====
section
/-! DEFINITION. ADD, AND, NOT (41_alu.md R100 to R105). -/

namespace Sys2Proof.Machine

/-- ADD, register form (R100). -/
def execAddReg (dr sr1 sr2 : Reg) (s : State) : Result :=
  complete .none (writeDest dr (getReg sr1 s + getReg sr2 s) s)

/-- ADD, immediate form (R101). -/
def execAddImm (dr sr1 : Reg) (imm : BitVec 5) (s : State) : Result :=
  complete .none (writeDest dr (getReg sr1 s + sext16 imm) s)

/-- AND, register form (R102). -/
def execAndReg (dr sr1 sr2 : Reg) (s : State) : Result :=
  complete .none (writeDest dr (getReg sr1 s &&& getReg sr2 s) s)

/-- AND, immediate form: the immediate is sign-extended (R103). -/
def execAndImm (dr sr1 : Reg) (imm : BitVec 5) (s : State) : Result :=
  complete .none (writeDest dr (getReg sr1 s &&& sext16 imm) s)

/-- NOT (R104). -/
def execNot (dr sr : Reg) (s : State) : Result :=
  complete .none (writeDest dr (~~~(getReg sr s)) s)

end Sys2Proof.Machine
end

