-- ==== Sys2Proof/Machine/Control.lean ====
section
/-! DEFINITION. BR, JMP, JSR, JSRR (43_control.md R130 to R134). Targets wrap and are never checked (R13). -/

namespace Sys2Proof.Machine

/-- BR (R130). -/
def execBr (n z p : Bool) (off : BitVec 9) (s : State) : Result :=
  complete .none (if branchTaken n z p s.cond then setPc (pcRelative s.pc off) s else s)

/-- JMP, and RET when the base is R7 (R131). -/
def execJmp (base : Reg) (s : State) : Result :=
  complete .none (setPc (getReg base s) s)

/-- JSR (R132). -/
def execJsr (off : BitVec 11) (s : State) : Result :=
  complete .none (setPc (pcRelative s.pc off) (linkReturn s))

/-- JSRR: the base is read AFTER the write of R7 (R133). -/
def execJsrr (base : Reg) (s : State) : Result :=
  let t := linkReturn s
  complete .none (setPc (getReg base t) t)

end Sys2Proof.Machine
end

