-- ==== Sys2Proof/Machine/LoadStore.lean ====
section
/-! DEFINITION. LD, LDI, LDR, LEA, ST, STI, STR (42_load_store.md R110 to R117). `pc` is already advanced (R83). -/

namespace Sys2Proof.Machine

/-- LD (R110). -/
def execLd (dr : Reg) (off : BitVec 9) (s : State) : Result :=
  withAddress s.pc (sextInt off) s fun ea => writeDest dr (loadWord ea s) s

/-- LDI: the pointer is a word and is not checked again (R111, R37). -/
def execLdi (dr : Reg) (off : BitVec 9) (s : State) : Result :=
  withAddress s.pc (sextInt off) s fun ea => writeDest dr (loadWord (loadWord ea s) s) s

/-- LDR (R112). -/
def execLdr (dr base : Reg) (off : BitVec 6) (s : State) : Result :=
  withAddress (getReg base s) (sextInt off) s fun ea => writeDest dr (loadWord ea s) s

/-- LEA: no access, the sum wraps, the flags are set (R113). -/
def execLea (dr : Reg) (off : BitVec 9) (s : State) : Result :=
  complete .none (writeDest dr (pcRelative s.pc off) s)

/-- ST (R114). -/
def execSt (sr : Reg) (off : BitVec 9) (s : State) : Result :=
  withAddress s.pc (sextInt off) s fun ea => storeWord ea (getReg sr s) s

/-- STI (R115). -/
def execSti (sr : Reg) (off : BitVec 9) (s : State) : Result :=
  withAddress s.pc (sextInt off) s fun ea => storeWord (loadWord ea s) (getReg sr s) s

/-- STR (R116). -/
def execStr (sr base : Reg) (off : BitVec 6) (s : State) : Result :=
  withAddress (getReg base s) (sextInt off) s fun ea => storeWord ea (getReg sr s) s

end Sys2Proof.Machine
end

