-- ==== Sys2Proof/Machine/System.lean ====
section
/-! DEFINITION. TRAP with its services, RTI, RES (44_system.md R140 to R150). A service is performed inside the one
instruction; `pc` and `cond` are not touched (R140, R141). The bodies after `x[7] <- pc` stand by themselves, because a
held service is carried on from its body (R22). -/

namespace Sys2Proof.Machine

/-- The rest of GETC after `x[7] <- pc`: hold while the input stream is empty (R142, R22). -/
def getcBody (s : State) : Result :=
  match s.cin with
  | [] => hold .getc s
  | c :: rest => complete .none (setReg .r0 (c.setWidth 16) { s with cin := rest })

/-- The rest of IN after the prompt: hold, or echo the byte and put it in R0 (R145, R22). -/
def inBody (s : State) : Result :=
  match s.cin with
  | [] => hold .inp s
  | c :: rest => complete .none (setReg .r0 (c.setWidth 16) (consoleOut [c] { s with cin := rest }))

/-- How a string scan ends (R144, R146): at a zero word, at a checked address out of range, or after reading all
65536 words without a zero (only under `Wrap`, R218). -/
inductive ScanEnd where
  | terminated
  | outOfRange (i : Int)
  | unfinished
deriving DecidableEq, Repr

/-- The scan of PUTS and PUTSP from index `k` with at most `fuel` reads: the bytes output and how it ends (R144, R146). -/
def scanString (policy : EaPolicy) (m : Memory) (emit : Word → List Byte) (base : Word) :
    (fuel k : Nat) → List Byte × ScanEnd
  | 0, k =>
    match effectiveAddress policy base k with
    | .outOfRange i => ([], .outOfRange i)
    | .address _ => ([], .unfinished)
  | fuel + 1, k =>
    match effectiveAddress policy base k with
    | .outOfRange i => ([], .outOfRange i)
    | .address ea =>
      let w := readWord m ea
      if w = 0#16 then ([], .terminated)
      else
        let r := scanString policy m emit base fuel (k + 1)
        (emit w ++ r.1, r.2)

/-- The reads of one whole lap of the address space (R30). -/
def lapReads : Nat := 65536

/-- The byte PUTS outputs for a word: its low byte (R144). -/
def emitPuts (w : Word) : List Byte := [w.extractLsb' 0 8]

/-- The bytes PUTSP outputs for a word: the low byte, then the high byte unless it is zero (R146). -/
def emitPutsp (w : Word) : List Byte :=
  if w.extractLsb' 8 8 = 0#8 then [w.extractLsb' 0 8] else [w.extractLsb' 0 8, w.extractLsb' 8 8]

/-- How a string service goes on after its scan: the output stands whatever the end is (R144, R146, R177). After a lap
without a zero word the scan stands again at the start address and the service is held (R218; log 6). -/
def finishScan (h : Hold) (r : List Byte × ScanEnd) (s : State) : Result :=
  match r.2 with
  | .terminated => complete .none (consoleOut r.1 s)
  | .outOfRange i => complete (.memoryFault i) (consoleOut r.1 s)
  | .unfinished => hold h (consoleOut r.1 s)

/-- The rest of a string service after `x[7] <- pc` (R144, R146). -/
def stringBody (h : Hold) (emit : Word → List Byte) (s : State) : Result :=
  finishScan h (scanString s.eaPolicy s.mem emit (getReg .r0 s) lapReads 0) s

/-- TRAP, service GETC (R140, R142). -/
def execTrapGetc (s : State) : Result := getcBody (linkReturn s)

/-- TRAP, service OUT: the low byte of R0 (R140, R143). -/
def execTrapOut (s : State) : Result :=
  let t := linkReturn s
  complete .none (consoleOut [(getReg .r0 t).extractLsb' 0 8] t)

/-- TRAP, service PUTS (R140, R144). -/
def execTrapPuts (s : State) : Result := stringBody .puts emitPuts (linkReturn s)

/-- TRAP, service IN: the prompt is written before the wait (R140, R145). -/
def execTrapIn (s : State) : Result := inBody (consoleOut Config.inPrompt (linkReturn s))

/-- TRAP, service PUTSP (R140, R146). -/
def execTrapPutsp (s : State) : Result := stringBody .putsp emitPutsp (linkReturn s)

/-- TRAP, service HALT: nothing is output (R140, R147). -/
def execTrapHalt (s : State) : Result := complete .halt (linkReturn s)

/-- TRAP with any other vector: R7 is written all the same (R140, R148). -/
def execTrapOther (v : BitVec 8) (s : State) : Result :=
  complete (.abnormal (.unimplementedTrap v)) (linkReturn s)

/-- RTI: there is only the one mode, so it always signals (R149, R182). -/
def execRti (s : State) : Result := complete (.abnormal .privilegedRti) s

/-- RES (R150). -/
def execRes (s : State) : Result := complete (.abnormal .reservedOpcode) s

/-- Carry a held service on from its body (R22, R218). -/
def continueHeld : Hold → State → Result
  | .getc, s => getcBody s
  | .inp, s => inBody s
  | .puts, s => stringBody .puts emitPuts s
  | .putsp, s => stringBody .putsp emitPutsp s

end Sys2Proof.Machine
end

