-- ==== Sys2Proof/Machine/HostPort.lean ====
section
/-! DEFINITION. What the host may do at the core's boundary, outside every step: load an image and start a run
(70_reset_and_hazards.md R200 to R212), supply input (10_state.md R22), return from `DebugEnter`
(60_exceptions.md R185, R188), and read the final status (40_instruction_cycle.md R91). -/

namespace Sys2Proof.Machine

/-- `LoadError` (R207). -/
inductive LoadError where
  | unreadable
  | oddLength
  | outOfBounds
deriving DecidableEq, Repr

/-- What a load answers (R205). -/
inductive LoadResult where
  | loaded (s : State)
  | failed (e : LoadError)
deriving DecidableEq, Repr

/-- The big-endian words of a byte sequence; a dangling last byte is left out (R44, R206). -/
def imageWords : List Byte → List Word
  | hi :: lo :: rest => wordOfBytes hi lo :: imageWords rest
  | _ => []

/-- Write words to consecutive addresses (R206). -/
def writeWords (m : Memory) (a : Nat) : List Word → Memory
  | [] => m
  | w :: rest => writeWords (writeWord m (BitVec.ofNat 16 a) w) (a + 1) rest

/-- The words of an image with an even, non-zero number of bytes: origin, then contents (R206). -/
def loadWords (ws : List Word) (s : State) : LoadResult :=
  match ws with
  | [] => .failed .unreadable
  | origin :: contents =>
    if origin.toNat + contents.length > 65536 then .failed .outOfBounds
    else .loaded { s with mem := writeWords s.mem origin.toNat contents }

/-- `load(state, source)`; `none` is a source that cannot be read (R205, R206). The checks come in the order Unreadable,
OddLength, OutOfBounds, before any write (D20). -/
def loadImage (source : Option (List Byte)) (s : State) : LoadResult :=
  match source with
  | none => .failed .unreadable
  | some bytes =>
    if bytes = [] then .failed .unreadable
    else if bytes.length % 2 = 1 then .failed .oddLength
    else loadWords (imageWords bytes) s

/-- The run start (R210, R212); registers, `cond`, `IR`, memory and the debugger fields are not touched. DESIGN CHOICE, unsafe
(log 23): called while a step stands unfinished, which R212 is silent on, it drops that step (`phase := .ready`). -/
def startRun (s : State) : State :=
  { s with
    pc := Config.pcStart
    running := true
    abnormal := false
    abnormalLog := []
    fault := .noFault
    cout := []
    phase := .ready }

/-- The host supplies one more input byte (R22). -/
def supplyInput (b : Byte) (s : State) : State := { s with cin := s.cin ++ [b] }

/-- Set or clear `bp[a]` in the rising list of breakpoint addresses (R20; log 17). -/
def setBreakpoint (a : Word) (on : Bool) : List Word → List Word
  | [] => if on then [a] else []
  | b :: rest =>
    if a < b then (if on then a :: b :: rest else b :: rest)
    else if a = b then (if on then b :: rest else rest)
    else b :: setBreakpoint a on rest

/-- The canonical form of the breakpoint set: strictly rising addresses (log 17). -/
def breakpointsWf : List Word → Bool
  | [] => true
  | [_] => true
  | a :: b :: rest => decide (a < b) && breakpointsWf (b :: rest)

/-- `DebugEnter` returns with the state the host chose: every field is the host's (R188, U11) but the word already
fetched, its address, the constant `debugger_enabled` and the machine's policy; the engine then goes on with action 3.
Outside a call nothing happens. -/
def debugReturn (chosen : State) (s : State) : State :=
  match s.phase with
  | .inDebugEnter _ =>
    { chosen with
      ir := s.ir
      fetchAddr := s.fetchAddr
      debuggerEnabled := s.debuggerEnabled
      eaPolicy := s.eaPolicy
      phase := .resuming }
  | _ => s

/-- The conditions of the engine (R80). -/
inductive EngineCondition where
  | stopped
  | running
  | faulted (s : Int)
deriving DecidableEq, Repr

/-- The engine's condition, told by `running` and `fault` (R80). -/
def engineCondition (s : State) : EngineCondition :=
  if s.running then .running
  else
    match s.fault with
    | .noFault => .stopped
    | .memoryFault i => .faulted i

/-- The final status of a run (R91). -/
inductive FinalStatus where
  | failed (s : Int)
  | completedAbnormally
  | completedNormally
deriving DecidableEq, Repr

/-- The final status, where the run has ended: between two steps with `running` false (R91; log 22). DESIGN CHOICE, unsafe
(log 24): a machine on which no run was ever started is answered too, by the same two fields, though R91 speaks of a run. -/
def finalStatus (s : State) : Option FinalStatus :=
  if s.phase = .ready ∧ s.running = false then
    match s.fault with
    | .memoryFault i => some (.failed i)
    | .noFault => some (if s.abnormal then .completedAbnormally else .completedNormally)
  else none

end Sys2Proof.Machine
end

