-- ==== Sys2Proof/Machine/Engine.lean ====
section
/-! DEFINITION. The engine: the actions of Machine/Cycle.lean and `exec` composed into one step
(40_instruction_cycle.md R81, R92; 60_exceptions.md R189), and the placing of a word where the next step fetches. -/

namespace Sys2Proof.Machine

/-- Actions 3 to 6: pc advance, decode and dispatch with the ending interpreted, post-hook (R81, R83, R84, R187). -/
def runInstruction (s : State) : Result :=
  retire (exec (currentInstr s) (advancePc s))

/-- One step (R81, R189). A stopped engine and a blocked one do nothing (R80, R185; log 4); `running` is tested only
between steps, so a step that stands in the middle is carried on whatever `running` is (R81, R188). -/
def engineStep (s : State) : Result :=
  match s.phase with
  | .ready =>
    if s.running then
      let t := preHook (fetch s)
      if t.phase = .ready then runInstruction t else .next t
    else .next s
  | .inDebugEnter _ => .next s
  | .resuming => runInstruction (toReady s)
  | .holding h => retire (continueHeld h (toReady s))

/-- A machine about to step: a stopped one is started as R210 says, an unfinished step is dropped, and the debugger is
switched off, so that no hook stands before the next instruction (log 10). -/
def readyToFetch (s : State) : State :=
  { (if s.running then toReady s else startRun s) with debuggerEnabled := false }

/-- A machine about to step with a word stored at `pc` (R82, R201; log 10). -/
def placeWord (w : Word) (s : State) : State :=
  let t := readyToFetch s
  storeWord t.pc w t

end Sys2Proof.Machine
end

