-- ==== Sys2Proof/Machine/Step.lean ====
section
/-! DEFINITION. The one step of the machine and the placing of an instruction, both as Machine/Engine.lean defines them. -/

namespace Sys2Proof.Machine

/-- One step of the engine (R81, R189). -/
def step (s : State) : Host.Outcome State Fault Refusal := engineStep s

/-- `s` with an instruction stored where the next step fetches; every row of the table is one word (R50; log 10). -/
def State.withFetchWord (s : State) (_nbits w : Nat) : State := placeWord (BitVec.ofNat 16 w) s

end Sys2Proof.Machine
end

