-- ==== Sys2Proof/Safety.lean ====
section
/-! DEFINITION. The terms in which claims about this machine are stated: what stays the same, what the rules call a
result, the state a program can observe, and the machine's invariant. -/

namespace Sys2Proof.Machine

/-! What the rules say of instructions. -/

/-- The seven instructions that update `cond` (10_state.md R15). -/
def setsFlags : Instr → Bool
  | .addReg _ _ _ | .addImm _ _ _ | .andReg _ _ _ | .andImm _ _ _ | .not _ _ | .ld _ _ | .ldi _ _
  | .ldr _ _ _ | .lea _ _ => true
  | .br _ _ _ _ | .st _ _ | .jsr _ | .jsrr _ | .str _ _ _ | .rti | .sti _ _ | .jmp _ | .res | .trapGetc
  | .trapOut | .trapPuts | .trapIn | .trapPutsp | .trapHalt | .trapOther _ => false

/-- The registers an instruction writes (10_state.md R11). -/
def writtenRegs : Instr → List Reg
  | .addReg dr _ _ | .addImm dr _ _ | .andReg dr _ _ | .andImm dr _ _ | .not dr _ | .ld dr _ | .ldi dr _
  | .ldr dr _ _ | .lea dr _ => [dr]
  | .jsr _ | .jsrr _ | .trapOut | .trapPuts | .trapPutsp | .trapHalt | .trapOther _ => [.r7]
  | .trapGetc | .trapIn => [.r0, .r7]
  | .br _ _ _ _ | .st _ _ | .sti _ _ | .str _ _ _ | .rti | .res | .jmp _ => []

/-- The loads and LEA (42_load_store.md R110 to R113, R117). -/
def isLoadOrLea : Instr → Bool
  | .ld _ _ | .ldi _ _ | .ldr _ _ _ | .lea _ _ => true
  | .addReg _ _ _ | .addImm _ _ _ | .andReg _ _ _ | .andImm _ _ _ | .not _ _ | .br _ _ _ _ | .jmp _ | .jsr _
  | .jsrr _ | .st _ _ | .sti _ _ | .str _ _ _ | .rti | .res | .trapGetc | .trapOut | .trapPuts | .trapIn
  | .trapPutsp | .trapHalt | .trapOther _ => false

/-- The instructions that put the return address in R7 (43_control.md R134). -/
def linksReturn : Instr → Bool
  | .jsr _ | .jsrr _ | .trapGetc | .trapOut | .trapPuts | .trapIn | .trapPutsp | .trapHalt | .trapOther _ => true
  | .addReg _ _ _ | .addImm _ _ _ | .andReg _ _ _ | .andImm _ _ _ | .not _ _ | .br _ _ _ _ | .jmp _ | .ld _ _
  | .ldi _ _ | .ldr _ _ _ | .lea _ _ | .st _ _ | .sti _ _ | .str _ _ _ | .rti | .res => false

/-- The instructions that write `pc` beyond the common advance (10_state.md R13). -/
def writesPc : Instr → Bool
  | .br _ _ _ _ | .jmp _ | .jsr _ | .jsrr _ => true
  | .addReg _ _ _ | .addImm _ _ _ | .andReg _ _ _ | .andImm _ _ _ | .not _ _ | .ld _ _ | .ldi _ _
  | .ldr _ _ _ | .lea _ _ | .st _ _ | .sti _ _ | .str _ _ _ | .rti | .res | .trapGetc | .trapOut
  | .trapPuts | .trapIn | .trapPutsp | .trapHalt | .trapOther _ => false

/-- The instructions that write memory (20_memory.md R35). -/
def isStore : Instr → Bool
  | .st _ _ | .sti _ _ | .str _ _ _ => true
  | .addReg _ _ _ | .addImm _ _ _ | .andReg _ _ _ | .andImm _ _ _ | .not _ _ | .ld _ _ | .ldi _ _
  | .ldr _ _ _ | .lea _ _ | .br _ _ _ _ | .jmp _ | .jsr _ | .jsrr _ | .rti | .res | .trapGetc | .trapOut
  | .trapPuts | .trapIn | .trapPutsp | .trapHalt | .trapOther _ => false

/-- The reason an instruction signals `Abnormal` with, always (60_exceptions.md R170). -/
def abnormalReasonOf : Instr → Option AbnormalReason
  | .rti => some .privilegedRti
  | .res => some .reservedOpcode
  | .trapOther v => some (.unimplementedTrap v)
  | .addReg _ _ _ | .addImm _ _ _ | .andReg _ _ _ | .andImm _ _ _ | .not _ _ | .ld _ _ | .ldi _ _
  | .ldr _ _ _ | .lea _ _ | .br _ _ _ _ | .st _ _ | .sti _ _ | .str _ _ _ | .jmp _ | .jsr _ | .jsrr _
  | .trapGetc | .trapOut | .trapPuts | .trapIn | .trapPutsp | .trapHalt => none

/-- The instructions that can raise `MemoryFault` (60_exceptions.md R170). -/
def canFault : Instr → Bool
  | .ld _ _ | .ldi _ _ | .ldr _ _ _ | .st _ _ | .sti _ _ | .str _ _ _ | .trapPuts | .trapPutsp => true
  | .addReg _ _ _ | .addImm _ _ _ | .andReg _ _ _ | .andImm _ _ _ | .not _ _ | .lea _ _ | .br _ _ _ _
  | .jmp _ | .jsr _ | .jsrr _ | .rti | .res | .trapGetc | .trapOut | .trapIn | .trapHalt
  | .trapOther _ => false

/-- The instruction a held service belongs to (10_state.md R22). -/
def holdInstr : Hold → Instr
  | .getc => .trapGetc
  | .inp => .trapIn
  | .puts => .trapPuts
  | .putsp => .trapPutsp

/-! Numbers. -/

/-- An integer that is an address of the 65536 words (20_memory.md R36). -/
abbrev inMemory (i : Int) : Prop := 0 ≤ i ∧ i < 65536

/-- The value `cond` has after a result `v`, over the three ranges of 40_instruction_cycle.md R90. -/
def CcOfResult (v : Word) (c : BitVec 3) : Prop :=
  (0x8000 ≤ v.toNat → c = Config.flN) ∧ (v.toNat = 0 → c = Config.flZ) ∧
    (0x0001 ≤ v.toNat ∧ v.toNat ≤ 0x7FFF → c = Config.flP)

/-! What stays the same. -/

/-- Every register but those named. -/
def SameRegsBut (named : List Reg) (s t : State) : Prop := ∀ r, r ∉ named → getReg r t = getReg r s

/-- Every byte of memory, through the model's read of one byte. -/
def SameMemory (s t : State) : Prop := ∀ n : Nat, readByte t.mem n = readByte s.mem n

/-- Every byte of memory but the two of the word at `a`. -/
def SameMemoryBut (a : Word) (s t : State) : Prop :=
  ∀ n : Nat, n ≠ highCell a → n ≠ lowCell a → readByte t.mem n = readByte s.mem n

/-- `running`, `abnormal`, `abnormal_log` and `fault`. -/
def SameStatus (s t : State) : Prop :=
  t.running = s.running ∧ t.abnormal = s.abnormal ∧ t.abnormalLog = s.abnormalLog ∧ t.fault = s.fault

/-- The fields no instruction writes: `IR`, the fetch address, the debugger's and the policy. -/
def SameFixed (s t : State) : Prop :=
  t.ir = s.ir ∧ t.fetchAddr = s.fetchAddr ∧ t.debuggerEnabled = s.debuggerEnabled ∧
    t.debuggerSteps = s.debuggerSteps ∧ t.breakpoints = s.breakpoints ∧ t.eaPolicy = s.eaPolicy

/-- The console port. -/
def SameConsole (s t : State) : Prop := t.cin = s.cin ∧ t.cout = s.cout

/-- An instruction that ends with `None` and touches no console: everything but registers, `cond`, `pc`, memory. -/
def Quiet (s t : State) : Prop :=
  SameStatus s t ∧ SameFixed s t ∧ SameConsole s t ∧ t.phase = s.phase

/-! What the families do. -/

/-- `x[DR] <- v; setcc(v)` and nothing else. -/
def WritesResult (dr : Reg) (v : Word) (s t : State) : Prop :=
  getReg dr t = v ∧ CcOfResult v t.cond ∧ SameRegsBut [dr] s t ∧ t.pc = s.pc ∧ SameMemory s t ∧ Quiet s t

/-- `MemWrite(a, v)` and nothing else. -/
def StoresWord (a v : Word) (s t : State) : Prop :=
  (memWf s.mem = true → readWord t.mem a = v ∧ memWf t.mem = true) ∧ SameMemoryBut a s t ∧
    SameRegsBut [] s t ∧ t.cond = s.cond ∧ t.pc = s.pc ∧ Quiet s t

/-- `raise MemoryFault(i)` with nothing else changed (60_exceptions.md R175, R177). -/
def FaultsWith (i : Int) (s t : State) : Prop := t = { s with fault := .memoryFault i, running := false }

/-- The one way an instruction that can fault may end without its result: under `Fault`, with an integer that is no
address (60_exceptions.md R170, R175). -/
def FaultsOutOfRange (i : Instr) (s t : State) : Prop :=
  canFault i = true ∧ s.eaPolicy = .fault ∧ ∃ x, ¬ inMemory x ∧ FaultsWith x s t

/-- What every TRAP does: `x[7] <- pc` and nothing to `pc`, `cond`, memory and the fixed fields; `regs` names the
registers the service may write besides (44_system.md R140, R141). -/
def TrapCommon (regs : List Reg) (s t : State) : Prop :=
  getReg .r7 t = s.pc ∧ SameRegsBut (.r7 :: regs) s t ∧ t.pc = s.pc ∧ t.cond = s.cond ∧ SameMemory s t ∧
    SameFixed s t

/-! Strings of PUTS and PUTSP. -/

/-- The address of the scan's word `k` (44_system.md R144). -/
def scanAddress (base : Word) (k : Nat) : Word := BitVec.ofNat 16 (base.toNat + k)

/-- The scan from `base` can read its words 0 to `n`: none out of range, or the sums wrap (20_memory.md R36, R37). -/
def ScanReaches (policy : EaPolicy) (base : Word) (n : Nat) : Prop :=
  base.toNat + n < 65536 ∨ (policy = .wrap ∧ n < 65536)

/-- A string of `n` words at `base`, ended by the first zero word. -/
def StringAt (m : Memory) (base : Word) (n : Nat) : Prop :=
  (∀ k, k < n → readWord m (scanAddress base k) ≠ 0#16) ∧ readWord m (scanAddress base n) = 0#16

/-- The bytes PUTS outputs for the first `n` words (44_system.md R144). -/
def putsBytes (m : Memory) (base : Word) (n : Nat) : List Byte :=
  (List.range n).map fun k => (readWord m (scanAddress base k)).extractLsb' 0 8

/-- The bytes PUTSP outputs for the first `n` words: low byte, then high byte where it is not zero (44_system.md R146). -/
def putspBytes (m : Memory) (base : Word) (n : Nat) : List Byte :=
  (List.range n).flatMap fun k =>
    let w := readWord m (scanAddress base k)
    if w.extractLsb' 8 8 = 0#8 then [w.extractLsb' 0 8] else [w.extractLsb' 0 8, w.extractLsb' 8 8]

/-! Steps. -/

/-- The engine is about to begin a step (40_instruction_cycle.md R80, R81). -/
def AboutToStep (s : State) : Prop := s.phase = .ready ∧ s.running = true

/-- The pre-hook of the coming step calls nobody (60_exceptions.md R186). -/
def NoDebugStop (s : State) : Prop :=
  s.debuggerEnabled = false ∨ (s.pc ∉ s.breakpoints ∧ s.debuggerSteps ≠ 0)

/-- The state in which the handler of the coming instruction runs: after actions 1 to 3 (R82, R83). -/
def handlerState (s : State) : State :=
  { s with fetchAddr := s.pc, ir := readWord s.mem s.pc, pc := s.pc + 1#16 }

/-- What a program can observe (10_state.md R25): the registers, `pc`, `cond`, memory and `cin`. -/
structure ProgramView where
  regs : RegFile
  pc : Word
  cond : BitVec 3
  mem : Memory
  cin : List Byte
deriving DecidableEq, Repr

/-- The program's view of a state. -/
def programView (s : State) : ProgramView := ⟨s.regs, s.pc, s.cond, s.mem, s.cin⟩

/-- Two states that differ at most in `debugger_enabled` and `debugger_steps`. -/
def EqualButDebugger (s t : State) : Prop :=
  { s with debuggerEnabled := false, debuggerSteps := 0 } = { t with debuggerEnabled := false, debuggerSteps := 0 }

/-! The invariant. -/

/-- `cond` is one of the three states or the reset value (10_state.md R14). -/
def condLegal (c : BitVec 3) : Bool := c == 0b000#3 || c == 0b001#3 || c == 0b010#3 || c == 0b100#3

/-- A latched fault has stopped the engine (40_instruction_cycle.md R80, last sentence). -/
def FaultStops (s : State) : Prop := s.fault ≠ .noFault → s.running = false

/-- The sticky bit and the log tell of the same conditions (10_state.md R18, R87). -/
def AbnormalAgrees (s : State) : Prop := s.abnormal = !s.abnormalLog.isEmpty

/-- Where a step stands in the middle, the state bears it out: a debugger call needs the debugger on, and a held service
is the instruction in `IR`, its return address is in R7, and a string service is held only under `Wrap`. -/
def PhaseAgrees (s : State) : Prop :=
  match s.phase with
  | .ready => True
  | .inDebugEnter _ => s.debuggerEnabled = true
  | .resuming => s.debuggerEnabled = true
  | .holding h =>
    decode s.ir = holdInstr h ∧ getReg .r7 s = s.pc ∧
      (h = .puts ∨ h = .putsp → s.eaPolicy = .wrap)

/-- The invariant of the machine. -/
structure MachineInv (s : State) : Prop where
  memory : memWf s.mem = true
  cond : condLegal s.cond = true
  faultStops : FaultStops s
  abnormalAgrees : AbnormalAgrees s
  breakpoints : breakpointsWf s.breakpoints = true
  phaseAgrees : PhaseAgrees s

end Sys2Proof.Machine
end

