-- ==== Sys2Proof/Certificates/Slice0/Obligations.lean ====
section
/-! DEFINITION. The statements for the provers. Each docstring says which rule of spec/ the statement formalises. -/

open Sys2Proof
open Sys2Proof.Machine

/-! ## 41_alu.md -/

/-- R100: which words are the register form of ADD (bits 4:3 not read), and what it does: the sum modulo 65536 in DR,
the flags from it, nothing else. The field positions are the spec's own choice (30_encoding.md, GK2, GK3, D1; log 11);
that the sum is cut to 16 bits is D21; that bits 4:3 are ignored is D7 (log 16). -/
def Obligations.AddRegisterForm : Prop :=
  (∀ w : Word, w.extractLsb' 12 4 = 1#4 → w.getLsbD 5 = false →
    decode w = .addReg (regOfBits (w.extractLsb' 9 3)) (regOfBits (w.extractLsb' 6 3)) (regOfBits (w.extractLsb' 0 3))) ∧
  (∀ (dr sr1 sr2 : Reg) (s : State), ∃ t, exec (.addReg dr sr1 sr2) s = .next t ∧
    WritesResult dr (BitVec.ofNat 16 ((getReg sr1 s).toNat + (getReg sr2 s).toNat)) s t)

/-- R101: the immediate form of ADD. The field positions are the spec's own choice (30_encoding.md, GK2, GK3, D1; log
11); that the sum is cut to 16 bits is D21. -/
def Obligations.AddImmediateForm : Prop :=
  (∀ w : Word, w.extractLsb' 12 4 = 1#4 → w.getLsbD 5 = true →
    decode w = .addImm (regOfBits (w.extractLsb' 9 3)) (regOfBits (w.extractLsb' 6 3)) (w.extractLsb' 0 5)) ∧
  (∀ (dr sr1 : Reg) (imm : BitVec 5) (s : State), ∃ t, exec (.addImm dr sr1 imm) s = .next t ∧
    WritesResult dr (BitVec.ofInt 16 ((getReg sr1 s).toNat + imm.toInt)) s t)

/-- R102: the register form of AND, bit by bit. The field positions are the spec's own choice (30_encoding.md, GK2,
GK3, D1; log 11); that bits 4:3 are ignored is D7 (log 16). -/
def Obligations.AndRegisterForm : Prop :=
  (∀ w : Word, w.extractLsb' 12 4 = 5#4 → w.getLsbD 5 = false →
    decode w = .andReg (regOfBits (w.extractLsb' 9 3)) (regOfBits (w.extractLsb' 6 3)) (regOfBits (w.extractLsb' 0 3))) ∧
  (∀ (dr sr1 sr2 : Reg) (s : State), ∃ t v, exec (.andReg dr sr1 sr2) s = .next t ∧
    (∀ i, i < 16 → v.getLsbD i = ((getReg sr1 s).getLsbD i && (getReg sr2 s).getLsbD i)) ∧
    WritesResult dr v s t)

/-- R103: the immediate form of AND; bits 15:5 of the mask all equal imm5[4]. The field positions are the spec's own
choice (30_encoding.md, GK2, GK3, D1; log 11). -/
def Obligations.AndImmediateForm : Prop :=
  (∀ w : Word, w.extractLsb' 12 4 = 5#4 → w.getLsbD 5 = true →
    decode w = .andImm (regOfBits (w.extractLsb' 9 3)) (regOfBits (w.extractLsb' 6 3)) (w.extractLsb' 0 5)) ∧
  (∀ (dr sr1 : Reg) (imm : BitVec 5) (s : State), ∃ t v, exec (.andImm dr sr1 imm) s = .next t ∧
    (∀ i, i < 16 → v.getLsbD i =
      ((getReg sr1 s).getLsbD i && (if i < 5 then imm.getLsbD i else imm.getLsbD 4))) ∧
    WritesResult dr v s t)

/-- R104: NOT, `v = 65535 - a`; bits 5:0 not read. The field positions are the spec's own choice (30_encoding.md, GK2,
GK3, D1; log 11); that bits 5:0 are ignored is D7 (log 16). -/
def Obligations.NotComplements : Prop :=
  (∀ w : Word, w.extractLsb' 12 4 = 9#4 →
    decode w = .not (regOfBits (w.extractLsb' 9 3)) (regOfBits (w.extractLsb' 6 3))) ∧
  (∀ (dr sr : Reg) (s : State), ∃ t, exec (.not dr sr) s = .next t ∧
    WritesResult dr (BitVec.ofNat 16 (65535 - (getReg sr s).toNat)) s t)

/-! ## 42_load_store.md -/

/-- R110: LD. The field positions are the spec's own choice (30_encoding.md, GK2, GK3, D1; log 11); what an address
out of range does is D4 to D6 (log 3, log 15). -/
def Obligations.LdLoadsPcRelative : Prop :=
  (∀ w : Word, w.extractLsb' 12 4 = 2#4 → decode w = .ld (regOfBits (w.extractLsb' 9 3)) (w.extractLsb' 0 9)) ∧
  (∀ (dr : Reg) (off : BitVec 9) (s : State),
    (∀ ea, effectiveAddress s.eaPolicy s.pc (sextInt off) = .address ea →
      ∃ t, exec (.ld dr off) s = .next t ∧ WritesResult dr (readWord s.mem ea) s t) ∧
    (∀ i, effectiveAddress s.eaPolicy s.pc (sextInt off) = .outOfRange i →
      ∃ t, exec (.ld dr off) s = .next t ∧ FaultsWith i s t))

/-- R111: LDI; the pointer is not checked again. The field positions are the spec's own choice (30_encoding.md, GK2,
GK3, D1; log 11); what an address out of range does is D4 to D6 (log 3, log 15). -/
def Obligations.LdiLoadsThroughPointer : Prop :=
  (∀ w : Word, w.extractLsb' 12 4 = 10#4 → decode w = .ldi (regOfBits (w.extractLsb' 9 3)) (w.extractLsb' 0 9)) ∧
  (∀ (dr : Reg) (off : BitVec 9) (s : State),
    (∀ ea, effectiveAddress s.eaPolicy s.pc (sextInt off) = .address ea →
      ∃ t, exec (.ldi dr off) s = .next t ∧ WritesResult dr (readWord s.mem (readWord s.mem ea)) s t) ∧
    (∀ i, effectiveAddress s.eaPolicy s.pc (sextInt off) = .outOfRange i →
      ∃ t, exec (.ldi dr off) s = .next t ∧ FaultsWith i s t))

/-- R112: LDR. The field positions are the spec's own choice (30_encoding.md, GK2, GK3, D1; log 11); what an address
out of range does is D4 to D6 (log 3, log 15). -/
def Obligations.LdrLoadsBasePlusOffset : Prop :=
  (∀ w : Word, w.extractLsb' 12 4 = 6#4 →
    decode w = .ldr (regOfBits (w.extractLsb' 9 3)) (regOfBits (w.extractLsb' 6 3)) (w.extractLsb' 0 6)) ∧
  (∀ (dr base : Reg) (off : BitVec 6) (s : State),
    (∀ ea, effectiveAddress s.eaPolicy (getReg base s) (sextInt off) = .address ea →
      ∃ t, exec (.ldr dr base off) s = .next t ∧ WritesResult dr (readWord s.mem ea) s t) ∧
    (∀ i, effectiveAddress s.eaPolicy (getReg base s) (sextInt off) = .outOfRange i →
      ∃ t, exec (.ldr dr base off) s = .next t ∧ FaultsWith i s t))

/-- R113: LEA; the sum modulo 65536, never a fault, flags set. The field positions are the spec's own choice
(30_encoding.md, GK2, GK3, D1; log 11); that the sum wraps and never faults is D5 (log 20). -/
def Obligations.LeaComputesAddress : Prop :=
  (∀ w : Word, w.extractLsb' 12 4 = 14#4 → decode w = .lea (regOfBits (w.extractLsb' 9 3)) (w.extractLsb' 0 9)) ∧
  (∀ (dr : Reg) (off : BitVec 9) (s : State), ∃ t, exec (.lea dr off) s = .next t ∧
    WritesResult dr (BitVec.ofInt 16 (s.pc.toNat + off.toInt)) s t)

/-- R114: ST. The field positions are the spec's own choice (30_encoding.md, GK2, GK3, D1; log 11); what an address
out of range does is D4 to D6 (log 3, log 15). -/
def Obligations.StStoresPcRelative : Prop :=
  (∀ w : Word, w.extractLsb' 12 4 = 3#4 → decode w = .st (regOfBits (w.extractLsb' 9 3)) (w.extractLsb' 0 9)) ∧
  (∀ (sr : Reg) (off : BitVec 9) (s : State),
    (∀ ea, effectiveAddress s.eaPolicy s.pc (sextInt off) = .address ea →
      ∃ t, exec (.st sr off) s = .next t ∧ StoresWord ea (getReg sr s) s t) ∧
    (∀ i, effectiveAddress s.eaPolicy s.pc (sextInt off) = .outOfRange i →
      ∃ t, exec (.st sr off) s = .next t ∧ FaultsWith i s t))

/-- R115: STI. The field positions are the spec's own choice (30_encoding.md, GK2, GK3, D1; log 11); what an address
out of range does is D4 to D6 (log 3, log 15). -/
def Obligations.StiStoresThroughPointer : Prop :=
  (∀ w : Word, w.extractLsb' 12 4 = 11#4 → decode w = .sti (regOfBits (w.extractLsb' 9 3)) (w.extractLsb' 0 9)) ∧
  (∀ (sr : Reg) (off : BitVec 9) (s : State),
    (∀ ea, effectiveAddress s.eaPolicy s.pc (sextInt off) = .address ea →
      ∃ t, exec (.sti sr off) s = .next t ∧ StoresWord (readWord s.mem ea) (getReg sr s) s t) ∧
    (∀ i, effectiveAddress s.eaPolicy s.pc (sextInt off) = .outOfRange i →
      ∃ t, exec (.sti sr off) s = .next t ∧ FaultsWith i s t))

/-- R116: STR. The field positions are the spec's own choice (30_encoding.md, GK2, GK3, D1; log 11); what an address
out of range does is D4 to D6 (log 3, log 15). -/
def Obligations.StrStoresBasePlusOffset : Prop :=
  (∀ w : Word, w.extractLsb' 12 4 = 7#4 →
    decode w = .str (regOfBits (w.extractLsb' 9 3)) (regOfBits (w.extractLsb' 6 3)) (w.extractLsb' 0 6)) ∧
  (∀ (sr base : Reg) (off : BitVec 6) (s : State),
    (∀ ea, effectiveAddress s.eaPolicy (getReg base s) (sextInt off) = .address ea →
      ∃ t, exec (.str sr base off) s = .next t ∧ StoresWord ea (getReg sr s) s t) ∧
    (∀ i, effectiveAddress s.eaPolicy (getReg base s) (sextInt off) = .outOfRange i →
      ∃ t, exec (.str sr base off) s = .next t ∧ FaultsWith i s t))

/-- R36: `EA(b, o)` over the integers, both policies. The policy is the spec's open parameter (D4; log 3). -/
def Obligations.EffectiveAddressChecksTheSum : Prop :=
  ∀ (b : Word) (o : Int),
    (∀ p, inMemory (b.toNat + o) →
      ∃ a, effectiveAddress p b o = .address a ∧ (a.toNat : Int) = b.toNat + o) ∧
    (¬ inMemory (b.toNat + o) →
      effectiveAddress .fault b o = .outOfRange (b.toNat + o) ∧
      ∃ a, effectiveAddress .wrap b o = .address a ∧ (a.toNat : Int) = (b.toNat + o) % 65536)

/-- R89: a signed field as an integer and as a 16-bit word with its top bit copied up. The rule is about the widths 5,
6, 9 and 11; the statement is about every width below 16. -/
def Obligations.SignExtensionOfFields : Prop :=
  ∀ (n : Nat) (field : BitVec n), 0 < n → n < 16 →
    (field.getLsbD (n - 1) = false → sextInt field = field.toNat) ∧
    (field.getLsbD (n - 1) = true → sextInt field = (field.toNat : Int) - 2 ^ n) ∧
    (∀ i, i < n → (sext16 field).getLsbD i = field.getLsbD i) ∧
    (∀ i, n ≤ i → i < 16 → (sext16 field).getLsbD i = field.getLsbD (n - 1)) ∧
    (sext16 field).toInt = sextInt field

/-- R90: `setcc(v)` writes `cond` only, with the value of the range `v` lies in, and `v` is the word the same
instruction wrote to DR. The three values are named `FL_N`, `FL_Z`, `FL_P`; nothing here rests on their bits (log 13). -/
def Obligations.SetccFollowsTheSign : Prop :=
  (∀ (v : Word) (s : State),
    setcc v s = { s with cond := (setcc v s).cond } ∧ CcOfResult v (setcc v s).cond) ∧
  (∀ (dr : Reg) (v : Word) (s : State),
    writeDest dr v s = setcc v (setReg dr v s) ∧ getReg dr (writeDest dr v s) = v)

/-- R216: a word stored by ST, STI or STR is what the next fetch from that address returns, and the instruction
register is not changed by it. The spec derives this rule from R32, R40 and R42. -/
def Obligations.StoreIsSeenByTheNextFetch : Prop :=
  ∀ (s t : State) (sr base : Reg) (off9 : BitVec 9) (off6 : BitVec 6) (ea : Word), memWf s.mem = true →
    ((effectiveAddress s.eaPolicy s.pc (sextInt off9) = .address ea → exec (.st sr off9) s = .next t →
      (fetch { t with pc := ea }).ir = getReg sr s ∧ t.ir = s.ir) ∧
    (effectiveAddress s.eaPolicy s.pc (sextInt off9) = .address ea → exec (.sti sr off9) s = .next t →
      (fetch { t with pc := readWord s.mem ea }).ir = getReg sr s ∧ t.ir = s.ir) ∧
    (effectiveAddress s.eaPolicy (getReg base s) (sextInt off6) = .address ea → exec (.str sr base off6) s = .next t →
      (fetch { t with pc := ea }).ir = getReg sr s ∧ t.ir = s.ir))

/-! ## 43_control.md -/

/-- R130: BR, by the three pairs of a request bit and a `cond` bit, for every value of `cond`; then in the rule's own words,
for the three states of R14, with their values. The field positions are the spec's own choice (30_encoding.md, GK2, GK3,
D1; log 11); the values of the three states and the pairing of the request bits with them are GK4, D2 (log 13); that the
target wraps is D5 (log 20). -/
def Obligations.BrBranchesOnRequestedFlags : Prop :=
  (∀ w : Word, w.extractLsb' 12 4 = 0#4 →
    decode w = .br (w.getLsbD 11) (w.getLsbD 10) (w.getLsbD 9) (w.extractLsb' 0 9)) ∧
  (∀ (n z p : Bool) (off : BitVec 9) (s : State), exec (.br n z p off) s = .next
    { s with pc :=
        if (n = true ∧ s.cond.getLsbD 2 = true) ∨ (z = true ∧ s.cond.getLsbD 1 = true) ∨
            (p = true ∧ s.cond.getLsbD 0 = true)
        then BitVec.ofInt 16 (s.pc.toNat + off.toInt) else s.pc }) ∧
  (∀ (n z p : Bool) (off : BitVec 9) (s : State),
    ((n = true ∧ s.cond = Config.flN) ∨ (z = true ∧ s.cond = Config.flZ) ∨ (p = true ∧ s.cond = Config.flP) →
      exec (.br n z p off) s = .next { s with pc := BitVec.ofInt 16 (s.pc.toNat + off.toInt) }) ∧
    ((n = false ∧ s.cond = Config.flN) ∨ (z = false ∧ s.cond = Config.flZ) ∨ (p = false ∧ s.cond = Config.flP) →
      exec (.br n z p off) s = .next s)) ∧
  (Config.flN = 0b100#3 ∧ Config.flZ = 0b010#3 ∧ Config.flP = 0b001#3)

/-- R131: JMP; bits 11:9 and 5:0 not read. The field positions are the spec's own choice (30_encoding.md, GK2, GK3,
D1; log 11); that the other bits are ignored is D7 (log 16). -/
def Obligations.JmpJumpsToBase : Prop :=
  (∀ w : Word, w.extractLsb' 12 4 = 12#4 → decode w = .jmp (regOfBits (w.extractLsb' 6 3))) ∧
  (∀ (base : Reg) (s : State), exec (.jmp base) s = .next { s with pc := getReg base s })

/-- R132: JSR. The field positions are the spec's own choice (30_encoding.md, GK2, GK3, D1; log 11); that the target
wraps is D5 (log 20). -/
def Obligations.JsrLinksAndJumps : Prop :=
  (∀ w : Word, w.extractLsb' 12 4 = 4#4 → w.getLsbD 11 = true → decode w = .jsr (w.extractLsb' 0 11)) ∧
  (∀ (off : BitVec 11) (s : State), ∃ t, exec (.jsr off) s = .next t ∧
    getReg .r7 t = s.pc ∧ t.pc = BitVec.ofInt 16 (s.pc.toNat + off.toInt) ∧
    SameRegsBut [.r7] s t ∧ t.cond = s.cond ∧ SameMemory s t ∧ Quiet s t)

/-- R133: JSRR; with BaseR = 7 the target is the return address. The field positions are the spec's own choice
(30_encoding.md, GK2, GK3, D1; log 11); that R7 is written before the base is read is D12 (log 20). -/
def Obligations.JsrrLinksThenReadsBase : Prop :=
  (∀ w : Word, w.extractLsb' 12 4 = 4#4 → w.getLsbD 11 = false → decode w = .jsrr (regOfBits (w.extractLsb' 6 3))) ∧
  (∀ (base : Reg) (s : State), ∃ t, exec (.jsrr base) s = .next t ∧
    getReg .r7 t = s.pc ∧ (base = .r7 → t.pc = s.pc) ∧ (base ≠ .r7 → t.pc = getReg base s) ∧
    SameRegsBut [.r7] s t ∧ t.cond = s.cond ∧ SameMemory s t ∧ Quiet s t)

/-! ## 44_system.md -/

/-- R142 with R140: GETC on an input stream that holds a byte. The vector number and what the service does are the
spec's general knowledge (GK5, GK6, D9, D10; log 12); the console is D17. -/
def Obligations.GetcReadsOneByte : Prop :=
  (∀ w : Word, w.extractLsb' 12 4 = 15#4 → w.extractLsb' 0 8 = 0x20#8 → decode w = .trapGetc) ∧
  (∀ (s : State) (c : Byte) (rest : List Byte), s.cin = c :: rest → ∃ t, exec .trapGetc s = .next t ∧
    (getReg .r0 t).toNat = c.toNat ∧ t.cin = rest ∧ t.cout = s.cout ∧ TrapCommon [.r0] s t ∧
    SameStatus s t ∧ t.phase = s.phase)

/-- R143: OUT. The vector number and what the service does are the spec's general knowledge (GK5, GK6, D9, D10; log
12); the console is D17. -/
def Obligations.OutWritesLowByte : Prop :=
  (∀ w : Word, w.extractLsb' 12 4 = 15#4 → w.extractLsb' 0 8 = 0x21#8 → decode w = .trapOut) ∧
  (∀ s : State, ∃ t, exec .trapOut s = .next t ∧
    t.cout = s.cout ++ [BitVec.ofNat 8 ((getReg .r0 s).toNat % 256)] ∧ t.cin = s.cin ∧ TrapCommon [] s t ∧
    SameStatus s t ∧ t.phase = s.phase)

/-- R144: PUTS outputs the low bytes up to the first zero word, and completes. The vector number and what the service
does are the spec's general knowledge (GK5, GK6, D9, D10; log 12); the console is D17; the checked scan is D5 (log
20). -/
def Obligations.PutsWritesString : Prop :=
  (∀ w : Word, w.extractLsb' 12 4 = 15#4 → w.extractLsb' 0 8 = 0x22#8 → decode w = .trapPuts) ∧
  (∀ (s : State) (n : Nat), ScanReaches s.eaPolicy (getReg .r0 s) n → StringAt s.mem (getReg .r0 s) n →
    ∃ t, exec .trapPuts s = .next t ∧ t.cout = s.cout ++ putsBytes s.mem (getReg .r0 s) n ∧ t.cin = s.cin ∧
      TrapCommon [] s t ∧ SameStatus s t ∧ t.phase = s.phase)

/-- R145: IN writes the prompt, reads a byte and echoes it. The vector number, the prompt and what the service does
are the spec's general knowledge (GK5, GK6, GK10, D9, D10; log 12); the console is D17. -/
def Obligations.InPromptsReadsAndEchoes : Prop :=
  (∀ w : Word, w.extractLsb' 12 4 = 15#4 → w.extractLsb' 0 8 = 0x23#8 → decode w = .trapIn) ∧
  (∀ (s : State) (c : Byte) (rest : List Byte), s.cin = c :: rest → ∃ t, exec .trapIn s = .next t ∧
    (getReg .r0 t).toNat = c.toNat ∧ t.cin = rest ∧ t.cout = s.cout ++ Config.inPrompt ++ [c] ∧
    TrapCommon [.r0] s t ∧ SameStatus s t ∧ t.phase = s.phase)

/-- R146: PUTSP outputs two characters a word. The vector number and what the service does are the spec's general
knowledge (GK5, GK6, D9, D10; log 12); the console is D17; the checked scan is D5 (log 20). -/
def Obligations.PutspWritesPackedString : Prop :=
  (∀ w : Word, w.extractLsb' 12 4 = 15#4 → w.extractLsb' 0 8 = 0x24#8 → decode w = .trapPutsp) ∧
  (∀ (s : State) (n : Nat), ScanReaches s.eaPolicy (getReg .r0 s) n → StringAt s.mem (getReg .r0 s) n →
    ∃ t, exec .trapPutsp s = .next t ∧ t.cout = s.cout ++ putspBytes s.mem (getReg .r0 s) n ∧ t.cin = s.cin ∧
      TrapCommon [] s t ∧ SameStatus s t ∧ t.phase = s.phase)

/-- R147: HALT clears `running` and outputs nothing. The vector number is the spec's general knowledge (GK5, D9; log
12); that nothing is output is D24 (log 20). -/
def Obligations.HaltClearsRunning : Prop :=
  (∀ w : Word, w.extractLsb' 12 4 = 15#4 → w.extractLsb' 0 8 = 0x25#8 → decode w = .trapHalt) ∧
  (∀ s : State, ∃ t, exec .trapHalt s = .next t ∧ t.running = false ∧ TrapCommon [] s t ∧ SameConsole s t ∧
    t.abnormal = s.abnormal ∧ t.abnormalLog = s.abnormalLog ∧ t.fault = s.fault ∧ t.phase = s.phase)

/-- R148: TRAP with any other vector. The six service numbers are the spec's general knowledge (GK5, D9; log 12); that
R7 is written all the same is D11 (log 20); the log of the condition is D13 (log 15). -/
def Obligations.OtherTrapVectorsAreAbnormal : Prop :=
  (∀ w : Word, w.extractLsb' 12 4 = 15#4 → (w.toNat % 256 < 0x20 ∨ 0x25 < w.toNat % 256) →
    decode w = .trapOther (w.extractLsb' 0 8)) ∧
  (∀ (v : BitVec 8) (s : State), ∃ t, exec (.trapOther v) s = .next t ∧
    t.abnormal = true ∧ t.abnormalLog = s.abnormalLog ++ [(s.fetchAddr, .unimplementedTrap v)] ∧
    t.running = s.running ∧ t.fault = s.fault ∧ TrapCommon [] s t ∧ SameConsole s t ∧ t.phase = s.phase)

/-- R149: RTI always signals, and changes nothing else. That the other bits are ignored is D7 (log 16); the log of the
condition is D13 (log 15). -/
def Obligations.RtiIsAbnormal : Prop :=
  (∀ w : Word, w.extractLsb' 12 4 = 8#4 → decode w = .rti) ∧
  (∀ s : State, exec .rti s = .next
    { s with abnormal := true, abnormalLog := s.abnormalLog ++ [(s.fetchAddr, .privilegedRti)] })

/-- R150: RES always signals, and changes nothing else. That the other bits are ignored is D7 (log 16); the log of the
condition is D13 (log 15). -/
def Obligations.ResIsAbnormal : Prop :=
  (∀ w : Word, w.extractLsb' 12 4 = 13#4 → decode w = .res) ∧
  (∀ s : State, exec .res s = .next
    { s with abnormal := true, abnormalLog := s.abnormalLog ++ [(s.fetchAddr, .reservedOpcode)] })

/-- R22 and U6 (the stall state is the model's choice, log 5): on an empty input stream GETC and IN are held; only the
write of R7 and, for IN, the prompt have happened. The prompt before the wait is D10 (log 12). -/
def Obligations.GetcAndInHoldOnEmptyInput : Prop :=
  ∀ s : State, s.cin = [] →
    (∃ t, exec .trapGetc s = .next t ∧ t.phase = .holding .getc ∧ SameConsole s t ∧ TrapCommon [] s t ∧ SameStatus s t) ∧
    (∃ t, exec .trapIn s = .next t ∧ t.phase = .holding .inp ∧ t.cin = [] ∧ t.cout = s.cout ++ Config.inPrompt ∧
      TrapCommon [] s t ∧ SameStatus s t)

/-- R22 (in the model's terms, log 5): a held GETC or IN does nothing while the stream is empty, and when the host
appends a byte the next step ends exactly as the step that left it held would have ended with that byte there from the
start, wherever that step began: at a fetch, resumed after `DebugEnter` (log 7), or held already. The console is D17. -/
def Obligations.HeldInputServiceCompletesOnAByte : Prop :=
  ∀ (s t : State) (b : Byte), s.cin = [] → step s = .next t →
    (t.phase = .holding .getc ∨ t.phase = .holding .inp) →
    step t = .next t ∧ step (supplyInput b t) = step (supplyInput b s) ∧
      ∃ u, step (supplyInput b t) = .next u ∧ u.phase = .ready

/-- R144, R146 and R177 under `Fault`: with no zero word up to 0xFFFF the services fault with 65536, R7 written and
the characters below the end output. The services are D10 (log 12), the fault is D4 to D6 (log 3, log 15). -/
def Obligations.StringServicesFaultPastTheEnd : Prop :=
  ∀ s : State, s.eaPolicy = .fault →
    (∀ a : Word, (getReg .r0 s).toNat ≤ a.toNat → readWord s.mem a ≠ 0#16) →
    (∃ t, exec .trapPuts s = .next t ∧ t.fault = .memoryFault 65536 ∧ t.running = false ∧
      t.cout = s.cout ++ putsBytes s.mem (getReg .r0 s) (65536 - (getReg .r0 s).toNat) ∧ t.cin = s.cin ∧
      t.abnormal = s.abnormal ∧ t.abnormalLog = s.abnormalLog ∧ t.phase = s.phase ∧ TrapCommon [] s t) ∧
    (∃ t, exec .trapPutsp s = .next t ∧ t.fault = .memoryFault 65536 ∧ t.running = false ∧
      t.cout = s.cout ++ putspBytes s.mem (getReg .r0 s) (65536 - (getReg .r0 s).toNat) ∧ t.cin = s.cin ∧
      t.abnormal = s.abnormal ∧ t.abnormalLog = s.abnormalLog ∧ t.phase = s.phase ∧ TrapCommon [] s t)

/-- R218(b) and U7 (the stall state by whole laps is the model's choice, log 6): under `Wrap` with no zero word in the
whole memory PUTS and PUTSP never complete: they leave the engine held, and every step of an engine that stands held in
them adds one lap to `cout` and changes nothing else, so that it stands held again. The services are D10 (log 12), the
policy is D4 (log 3). -/
def Obligations.StringServicesWithoutZeroNeverComplete : Prop :=
  ∀ s : State, s.eaPolicy = .wrap → (∀ a : Word, readWord s.mem a ≠ 0#16) →
    (∃ t, exec .trapPuts s = .next t ∧ t.phase = .holding .puts ∧
      t.cout = s.cout ++ putsBytes s.mem (getReg .r0 s) 65536 ∧ t.cin = s.cin ∧ TrapCommon [] s t ∧ SameStatus s t ∧
      step t = .next { t with cout := t.cout ++ putsBytes s.mem (getReg .r0 s) 65536 }) ∧
    (∃ t, exec .trapPutsp s = .next t ∧ t.phase = .holding .putsp ∧
      t.cout = s.cout ++ putspBytes s.mem (getReg .r0 s) 65536 ∧ t.cin = s.cin ∧ TrapCommon [] s t ∧ SameStatus s t ∧
      step t = .next { t with cout := t.cout ++ putspBytes s.mem (getReg .r0 s) 65536 }) ∧
    (s.phase = .holding .puts →
      step s = .next { s with cout := s.cout ++ putsBytes s.mem (getReg .r0 s) 65536 }) ∧
    (s.phase = .holding .putsp →
      step s = .next { s with cout := s.cout ++ putspBytes s.mem (getReg .r0 s) 65536 })

/-! ## Rules about every instruction -/

/-- R15. Writers: each of the seven instructions leaves `cond` at `setcc` of the word it wrote to DR (or, a load under
`Fault` only, has faulted and changed nothing else), no other instruction writes it. Readers: only BR; for every other
instruction another `cond` before it changes nothing but `cond` after. That a fault leaves DR and `cond`, latches the
integer and stops the engine is D6 (log 15), the policy is D4 (log 3). -/
def Obligations.CondHasSevenWritersAndOneReader : Prop :=
  (∀ (i : Instr) (s t : State), exec i s = .next t →
    (setsFlags i = false → t.cond = s.cond) ∧
    (setsFlags i = true →
      (∃ r, writtenRegs i = [r] ∧ CcOfResult (getReg r t) t.cond) ∨ FaultsOutOfRange i s t)) ∧
  (∀ (i : Instr) (s t : State) (c : BitVec 3), (∀ n z p off, i ≠ .br n z p off) → exec i s = .next t →
    ∃ u, exec i { s with cond := c } = .next u ∧ { u with cond := t.cond } = t)

/-- R117 (a) to (e), over the seven loads, stores and LEA: what changes and what does not, a fault (of the loads and
stores under `Fault` only) changes nothing before it stops the engine, the flags rule, and a word stored and loaded back is
unchanged (through LDI where the store has not overwritten the pointer itself). That a fault latches the integer and
stops the engine is D6 (log 15), the policy is D4 (log 3). -/
def Obligations.LoadStoreFamilyProperties : Prop :=
  (∀ (i : Instr) (s t : State), exec i s = .next t →
    (isStore i = true → t.cond = s.cond ∧ SameRegsBut [] s t ∧ t.pc = s.pc ∧
      (Quiet s t ∨ FaultsOutOfRange i s t)) ∧
    (isLoadOrLea i = true → t.pc = s.pc ∧ SameMemory s t ∧
      ((∃ r, writtenRegs i = [r] ∧ SameRegsBut [r] s t ∧ Quiet s t) ∨ FaultsOutOfRange i s t)) ∧
    (setsFlags i = true →
      (∃ r, writtenRegs i = [r] ∧ CcOfResult (getReg r t) t.cond) ∨ FaultsOutOfRange i s t)) ∧
  (∀ (s t u : State) (sr dr base : Reg) (off9 : BitVec 9) (off6 : BitVec 6) (ea : Word), memWf s.mem = true →
    (effectiveAddress s.eaPolicy s.pc (sextInt off9) = .address ea →
      exec (.st sr off9) s = .next t → exec (.ld dr off9) t = .next u → getReg dr u = getReg sr s) ∧
    (effectiveAddress s.eaPolicy s.pc (sextInt off9) = .address ea → readWord s.mem ea ≠ ea →
      exec (.sti sr off9) s = .next t → exec (.ldi dr off9) t = .next u → getReg dr u = getReg sr s) ∧
    (effectiveAddress s.eaPolicy (getReg base s) (sextInt off6) = .address ea →
      exec (.str sr base off6) s = .next t → exec (.ldr dr base off6) t = .next u → getReg dr u = getReg sr s))

/-- R134: JSR, JSRR and TRAP put the address of the following instruction in R7, and `JMP R7` goes there from any state in
which R7 has not been changed since. -/
def Obligations.JmpR7ReturnsAfterTheCall : Prop :=
  ∀ (i : Instr) (s t u : State), linksReturn i = true → exec i s = .next t →
    getReg .r7 t = s.pc ∧
    (getReg .r7 u = getReg .r7 t → exec (.jmp .r7) u = .next { u with pc := s.pc })

/-- R11: an instruction writes no register but those the table names. R7 of TRAP with an unimplemented vector is D11,
R0 of GETC and IN is D10 (log 12, log 20). -/
def Obligations.OnlyNamedRegistersChange : Prop :=
  ∀ (i : Instr) (s t : State), exec i s = .next t → SameRegsBut (writtenRegs i) s t

/-- R13: no instruction but BR, JMP, JSR and JSRR changes `pc` beyond the common advance. That TRAP does not redirect
`pc` is D8 (log 20). -/
def Obligations.OnlyControlTransfersChangePc : Prop :=
  ∀ (i : Instr) (s t : State), writesPc i = false → exec i s = .next t → t.pc = s.pc

/-- R35 and R117: no instruction but ST, STI and STR changes memory, and no instruction changes `IR`, the fetch address,
the debugger's fields or the policy (R16, R20, R82). -/
def Obligations.OnlyStoresChangeMemory : Prop :=
  ∀ (i : Instr) (s t : State), exec i s = .next t → SameFixed s t ∧ (isStore i = false → t.mem = s.mem)

/-- R170: the complete list of conditions. `Abnormal` is signalled by RTI, RES and the other TRAP vectors, always and
with their reason; a fault is raised by the listed instructions only, only under `Fault`, with an out-of-range
integer; `running` is cleared by HALT and by a fault only. The reasons and the log are D13, the latch is D6 (log 15),
the policy is D4 (log 3). -/
def Obligations.OnlyListedInstructionsRaiseConditions : Prop :=
  ∀ (i : Instr) (s t : State), exec i s = .next t →
    (∀ r, abnormalReasonOf i = some r → t.abnormal = true ∧ t.abnormalLog = s.abnormalLog ++ [(s.fetchAddr, r)]) ∧
    (abnormalReasonOf i = none → t.abnormal = s.abnormal ∧ t.abnormalLog = s.abnormalLog) ∧
    (t.fault = s.fault ∨
      (canFault i = true ∧ s.eaPolicy = .fault ∧ t.running = false ∧ ∃ x, t.fault = .memoryFault x ∧ ¬ inMemory x)) ∧
    (t.running = s.running ∨ (t.running = false ∧ (i = .trapHalt ∨ ∃ x, t.fault = .memoryFault x)))

/-- The model's reading of "every instruction word in every reachable state has a defined next state" (93, after U18; logs 4,
5 and 6): every instruction in every state, and every step from every state, answers a next state. -/
def Obligations.EveryInstructionHasANextState : Prop :=
  (∀ (i : Instr) (s : State), ∃ t, exec i s = .next t) ∧ (∀ s : State, ∃ t, step s = .next t)

/-! ## The step and the debugger hooks -/

/-- A STEP RUNS THE DECODED INSTRUCTION: when the word at `pc` decodes to `i`, a step is `exec i` in the state after
the fetch and the pc advance, and then the post-hook where the instruction has completed. The hook's details are D16
(log 20). -/
def Obligations.StepRunsDecodedInstruction : Prop :=
  ∀ (s : State) (i : Instr), AboutToStep s → NoDebugStop s → decode (readWord s.mem s.pc) = i → wellFormed i = true →
    ∃ t, exec i (handlerState s) = .next t ∧
      step s = .next (if t.phase = .ready ∧ t.debuggerEnabled = true ∧ 0 < t.debuggerSteps
        then { t with debuggerSteps := t.debuggerSteps - 1 } else t)

/-- R92: the whole step with the debugger off is fetch, pc advance, handler, interpretation, and nothing else. That
the pc advance wraps is D5 (log 20). -/
def Obligations.StepWithoutDebugger : Prop :=
  ∀ s : State, AboutToStep s → s.debuggerEnabled = false →
    step s = exec (decode (readWord s.mem s.pc))
      { s with fetchAddr := s.pc, ir := readWord s.mem s.pc, pc := BitVec.ofNat 16 (s.pc.toNat + 1) }

/-- R80 (that a step without effect answers the same state is the model's choice, log 4): a stopped or faulted engine does
nothing, and neither does an engine blocked in `DebugEnter` (R185). -/
def Obligations.StoppedEngineDoesNothing : Prop :=
  ∀ s : State,
    (s.phase = .ready → s.running = false → step s = .next s) ∧
    (∀ m, s.phase = .inDebugEnter m → step s = .next s)

/-- R186: the pre-hook, seen through a step: the breakpoint has priority, the budget test comes second and resets the
budget first, and otherwise nothing is called. The order of the tests and the reset of the budget before the call are
D16 (log 20); the blocked phase is the model's choice (log 7). -/
def Obligations.PreHookStopsTheStep : Prop :=
  ∀ s : State, AboutToStep s →
    (s.debuggerEnabled = true → s.pc ∈ s.breakpoints →
      step s = .next { s with fetchAddr := s.pc, ir := readWord s.mem s.pc, phase := .inDebugEnter (some s.pc) }) ∧
    (s.debuggerEnabled = true → s.pc ∉ s.breakpoints → s.debuggerSteps = 0 →
      step s = .next { s with
        fetchAddr := s.pc, ir := readWord s.mem s.pc, debuggerSteps := -1, phase := .inDebugEnter none }) ∧
    (NoDebugStop s → ∀ t m, step s = .next t → t.phase ≠ .inDebugEnter m)

/-- R187 (and R22): at the end of a step whose instruction has completed, a positive budget has lost one and any other
budget is as it was, whether the step began at a fetch, after `DebugEnter`, or in a held service; a step that leaves a
service held has not retired and leaves the budget. The decrement of positive budgets only is D16 (log 20); where a held
or stopped step begins and ends is the model's choice (log 5 to log 7). -/
def Obligations.PostHookTakesOneOffTheBudget : Prop :=
  ∀ s t : State, (s.phase = .ready → s.running = true) → step s = .next t →
    (t.phase = .ready → t.debuggerSteps =
      if s.debuggerEnabled = true ∧ 0 < s.debuggerSteps then s.debuggerSteps - 1 else s.debuggerSteps) ∧
    (∀ h, t.phase = .holding h → t.debuggerSteps = s.debuggerSteps)

/-- R188 (in the model's terms, log 7): after `DebugEnter` returns with any host-chosen state, the step runs the word
fetched before the call, on that state, with whatever `pc` it holds advanced, and even if `running` was cleared. The
host-chosen state is D16 (log 20). -/
def Obligations.ResumedStepRunsTheFetchedWord : Prop :=
  ∀ (s chosen : State) (m : Option Word), s.phase = .inDebugEnter m →
    step (debugReturn chosen s) = retire (exec (decode s.ir)
      { chosen with
        ir := s.ir, fetchAddr := s.fetchAddr, debuggerEnabled := s.debuggerEnabled, eaPolicy := s.eaPolicy,
        phase := .ready, pc := chosen.pc + 1#16 })

/-- R88 and R190: a debugger that changes nothing changes no instruction: whether or not the coming step is stopped,
it ends as the step with the debugger off would have ended, but for the debugger's own fields. The blocked phase is
the model's choice (log 7). -/
def Obligations.DebuggerDoesNotAlterSemantics : Prop :=
  ∀ s t u : State, AboutToStep s → step s = .next t → step { s with debuggerEnabled := false } = .next u →
    ((∀ m, t.phase ≠ .inDebugEnter m) → EqualButDebugger t u) ∧
    (∀ m, t.phase = .inDebugEnter m → ∃ v, step (debugReturn t t) = .next v ∧ EqualButDebugger v u)

/-! ## Invariants and what a program can observe -/

/-- The machine's invariant is kept by every step, from every state: memory keeps its canonical form, `cond` stays
legal, a latched fault has stopped the engine, the sticky bit agrees with the log, an unfinished step agrees with the
state. The canonical forms and `phase` are the model's own (log 1, log 5 to log 7, log 17). -/
def Obligations.StepKeepsMachineInvariant : Prop :=
  ∀ s t : State, MachineInv s → step s = .next t → MachineInv t

/-- The state after reset and a started run meet the machine's invariant. The canonical forms and `phase` are the
model's own (log 1, log 9, log 17). -/
def Obligations.ResetMeetsMachineInvariant : Prop :=
  MachineInv State.reset ∧ MachineInv (startRun State.reset)

/-- What the host may do keeps the machine's invariant: a load, a run start, an input byte, and a return from
`DebugEnter` with a state that meets it. The host's actions as functions are the model's choice (log 18), and so is that a
run start drops an unfinished step (log 23). -/
def Obligations.HostActionsKeepMachineInvariant : Prop :=
  ∀ s : State, MachineInv s →
    (∀ source t, loadImage source s = .loaded t → MachineInv t) ∧ MachineInv (startRun s) ∧
    (∀ b, MachineInv (supplyInput b s)) ∧ (∀ chosen, MachineInv chosen → MachineInv (debugReturn chosen s))

/-- R25: a program can observe only the registers, `pc`, `cond`, memory and `cin`: two running machines that agree in
these (and in the policy) take steps that agree in these, whatever `IR`, the logs, `cout` and the debugger's fields
hold. The spec derives R25 from its list of the state. -/
def Obligations.ProgramSeesOnlyItsView : Prop :=
  ∀ s t u v : State, AboutToStep s → AboutToStep t → s.debuggerEnabled = false → t.debuggerEnabled = false →
    s.eaPolicy = t.eaPolicy → programView s = programView t → step s = .next u → step t = .next v →
    programView u = programView v ∧ u.running = v.running ∧ u.phase = v.phase

/-! ## Encoding -/

/-- R62: decoding the canonical word of a well-formed instruction gives the instruction back, for all twenty-five
forms. The layouts and the canonical words are the spec's own choice (GK2, D1, D18; log 11, log 16). -/
def Obligations.DecodeInvertsEncode : Prop :=
  ∀ i : Instr, wellFormed i = true → decode (encode i) = i

/-- R55 and R59: every word decodes to a well-formed instruction whose row it matches, and no other row (the last row
taken as "none of the six services") matches it. The layouts are the spec's own choice (GK2, D1, D7; log 11, log 16). -/
def Obligations.EveryWordMatchesExactlyOneRow : Prop :=
  ∀ w : Word, wellFormed (decode w) = true ∧ w &&& rowMask (decode w) = rowMatch (decode w) ∧
    ∀ i : Instr, wellFormed i = true → w &&& rowMask i = rowMatch i →
      (∀ v, i = .trapOther v → isServiceVector (w.extractLsb' 0 8) = false) →
      rowMask i = rowMask (decode w) ∧ rowMatch i = rowMatch (decode w)

/-- R56 and R62: changing ignored bits does not change what a word decodes to; a word re-encodes to a word that
differs from it in ignored bits only, and a canonical word to itself. The ignored bits are D7, the canonical words D18
(log 16). -/
def Obligations.IgnoredBitsAreNotDecoded : Prop :=
  (∀ w x : Word, decode (w ^^^ (x &&& ignoredBits (decode w))) = decode w) ∧
  (∀ w : Word, encode (decode w) &&& ~~~ignoredBits (decode w) = w &&& ~~~ignoredBits (decode w)) ∧
  (∀ (w : Word) (i : Instr), wellFormed i = true → w = encode i → encode (decode w) = w)

/-- R62 and R61: words written out from the spec decode to the instructions they stand for. The layouts are the spec's
own choice (GK2, D1; log 11). -/
def Obligations.SpecWordsDecode : Prop :=
  decode 0x1025#16 = .addImm .r0 .r0 5#5 ∧ decode 0x5401#16 = .andReg .r2 .r0 .r1 ∧
  decode 0x923F#16 = .not .r1 .r0 ∧ decode 0x69BE#16 = .ldr .r4 .r6 0b111110#6 ∧
  decode 0xB602#16 = .sti .r3 2#9 ∧ decode 0x05FE#16 = .br false true false 0b111111110#9 ∧
  decode 0xC1C0#16 = .jmp .r7 ∧ decode 0x4804#16 = .jsr 4#11 ∧ decode 0x41C0#16 = .jsrr .r7 ∧
  decode 0xF025#16 = .trapHalt ∧ decode 0xF026#16 = .trapOther 0x26#8 ∧ decode 0x8FFF#16 = .rti ∧
  decode 0xDABC#16 = .res

/-! ## Reset, loading, the run -/

/-- R206 (with the errors of R207): the checks in their order, and what a load writes. The order of the checks, all
before any write, is D20 (log 18). -/
def Obligations.LoadImageWritesTheWords : Prop :=
  ∀ s : State, memWf s.mem = true →
    loadImage none s = .failed .unreadable ∧ loadImage (some []) s = .failed .unreadable ∧
    (∀ bs : List Byte, bs.length % 2 = 1 → loadImage (some bs) s = .failed .oddLength) ∧
    (∀ (b0 b1 : Byte) (bs : List Byte), bs.length % 2 = 0 →
      (65536 < b0.toNat * 256 + b1.toNat + bs.length / 2 →
        loadImage (some (b0 :: b1 :: bs)) s = .failed .outOfBounds) ∧
      (b0.toNat * 256 + b1.toNat + bs.length / 2 ≤ 65536 →
        ∃ t, loadImage (some (b0 :: b1 :: bs)) s = .loaded t ∧ t = { s with mem := t.mem } ∧
          (∀ k, k < bs.length / 2 →
            (readWord t.mem (BitVec.ofNat 16 (b0.toNat * 256 + b1.toNat + k))).toNat =
              (bs.getD (2 * k) 0#8).toNat * 256 + (bs.getD (2 * k + 1) 0#8).toNat) ∧
          (∀ a : Word, (a.toNat < b0.toNat * 256 + b1.toNat ∨ b0.toNat * 256 + b1.toNat + bs.length / 2 ≤ a.toNat) →
            readWord t.mem a = readWord s.mem a)))

/-- R210: the run start. The start address is D14 (log 14); the cleared status is D15 (log 20); that a run start is defined
while a step stands unfinished is the model's choice (log 23). -/
def Obligations.RunStartSetsPcAndStatus : Prop :=
  ∀ s : State,
    (startRun s).pc = 0x3000#16 ∧ (startRun s).running = true ∧ (startRun s).abnormal = false ∧
    (startRun s).abnormalLog = [] ∧ (startRun s).fault = .noFault ∧ (startRun s).cout = [] ∧
    (startRun s).regs = s.regs ∧ (startRun s).cond = s.cond ∧ (startRun s).ir = s.ir ∧ (startRun s).mem = s.mem ∧
    (startRun s).debuggerEnabled = s.debuggerEnabled ∧ (startRun s).debuggerSteps = s.debuggerSteps ∧
    (startRun s).breakpoints = s.breakpoints ∧ (startRun s).cin = s.cin ∧ (startRun s).eaPolicy = s.eaPolicy

/-- R24, the values after initialisation (not the fields whose value R24 leaves to the host, nor the model's own).
`COND_RESET` is D3 (log 13); the values that the source does not list are D15, D17 (log 20). -/
def Obligations.ResetLeavesTheSpecsValues : Prop :=
  (∀ r, getReg r State.reset = 0x0000#16) ∧ State.reset.pc = 0x0000#16 ∧ State.reset.cond = 0b000#3 ∧
  (∀ a : Word, readWord State.reset.mem a = 0x0000#16) ∧ State.reset.ir = 0x0000#16 ∧
  State.reset.running = false ∧ State.reset.abnormal = false ∧ State.reset.abnormalLog = [] ∧
  State.reset.fault = .noFault ∧ State.reset.debuggerSteps = -1 ∧ (∀ a, isBreakpoint a State.reset = false) ∧
  State.reset.cout = []

/-- R91: the final status of a run that has ended, from `fault` and `abnormal`; a run that goes on has none. The
classification is D25; when it is read is the model's (log 22). That a machine on which no run was ever started is
answered too, as `State.reset` is, is the model's choice (log 24). -/
def Obligations.FinalStatusOfARun : Prop :=
  ∀ s : State,
    (s.phase = .ready → s.running = false →
      (∀ x, s.fault = .memoryFault x → finalStatus s = some (.failed x)) ∧
      (s.fault = .noFault → s.abnormal = true → finalStatus s = some .completedAbnormally) ∧
      (s.fault = .noFault → s.abnormal = false → finalStatus s = some .completedNormally)) ∧
    (s.running = true → finalStatus s = none) ∧ (s.phase ≠ .ready → finalStatus s = none)
end

