-- ==== Sys2Proof/Laws/Decode.lean ====
section
/-! SUPPORT. The small lemmas of the decoder's and the encoder's parts: what each field of a format reads back as. -/

namespace Sys2Proof

@[simp] theorem regOfBits_regBits (r : Reg) : regOfBits (regBits r) = r := by
  cases r <;> rfl

@[simp] theorem regBits_regOfBits (b : BitVec 3) : regBits (regOfBits b) = b := by
  revert b; decide

/-- A word is the big-endian join of its two bytes (R44). -/
theorem wordOfBytes_bytesOfWord (w : Word) : wordOfBytes (w.extractLsb' 8 8) (w.extractLsb' 0 8) = w := by
  apply BitVec.eq_of_getLsbD_eq
  intro i hi
  simp only [wordOfBytes, BitVec.getLsbD_append, BitVec.getLsbD_extractLsb']
  by_cases h : i < 8
  · simp [h]
  · have : 8 + (i - 8) = i := by omega
    have h' : i - 8 < 8 := by omega
    simp [h, h', this]

/-- The decoder of table rows reads the word it is given (R59). -/
@[simp] theorem decodeTableWord_word (w : Nat) : decodeTableWord 16 w = some (decode (BitVec.ofNat 16 w)) := by
  simp only [decodeTableWord, bytesOfWord, decodeBytes, wordOfBytes_bytesOfWord, if_true]

/-! Format RRR (R52). -/

theorem formatRRR_opcode (op : BitVec 4) (a b c : Reg) : (formatRRR op a b c).extractLsb' 12 4 = op := by
  apply BitVec.eq_of_getLsbD_eq
  intro i hi
  interval_cases i <;> simp only [formatRRR, BitVec.getLsbD_append, BitVec.getLsbD_extractLsb'] <;> simp

/-- The selecting bits of the row (R55). -/
theorem formatRRR_row (op : BitVec 4) (a b c : Reg) : formatRRR op a b c &&& 0xF020#16 = op ++ 0#12 := by
  apply BitVec.eq_of_getLsbD_eq
  intro i hi
  interval_cases i <;> simp only [formatRRR, BitVec.getLsbD_append, BitVec.getLsbD_and] <;> simp

theorem formatRRR_high (op : BitVec 4) (a b c : Reg) : (formatRRR op a b c).extractLsb' 9 3 = regBits a := by
  apply BitVec.eq_of_getLsbD_eq
  intro i hi
  interval_cases i <;> simp only [formatRRR, BitVec.getLsbD_append, BitVec.getLsbD_extractLsb'] <;> simp

theorem formatRRR_mid (op : BitVec 4) (a b c : Reg) : (formatRRR op a b c).extractLsb' 6 3 = regBits b := by
  apply BitVec.eq_of_getLsbD_eq
  intro i hi
  interval_cases i <;> simp only [formatRRR, BitVec.getLsbD_append, BitVec.getLsbD_extractLsb'] <;> simp

theorem formatRRR_low (op : BitVec 4) (a b c : Reg) : (formatRRR op a b c).extractLsb' 0 3 = regBits c := by
  apply BitVec.eq_of_getLsbD_eq
  intro i hi
  interval_cases i <;> simp only [formatRRR, BitVec.getLsbD_append, BitVec.getLsbD_extractLsb'] <;> simp

theorem formatRRR_bit5 (op : BitVec 4) (a b c : Reg) : (formatRRR op a b c).getLsbD 5 = false := by
  simp only [formatRRR, BitVec.getLsbD_append]; simp

/-! Format RRI (R52). -/

theorem formatRRI_opcode (op : BitVec 4) (a b : Reg) (imm : BitVec 5) : (formatRRI op a b imm).extractLsb' 12 4 = op := by
  apply BitVec.eq_of_getLsbD_eq
  intro i hi
  interval_cases i <;> simp only [formatRRI, BitVec.getLsbD_append, BitVec.getLsbD_extractLsb'] <;> simp

/-- The selecting bits of the row (R55). -/
theorem formatRRI_row (op : BitVec 4) (a b : Reg) (imm : BitVec 5) : formatRRI op a b imm &&& 0xF020#16 = op ++ 0x020#12 := by
  apply BitVec.eq_of_getLsbD_eq
  intro i hi
  interval_cases i <;> simp only [formatRRI, BitVec.getLsbD_append, BitVec.getLsbD_and] <;> simp

theorem formatRRI_high (op : BitVec 4) (a b : Reg) (imm : BitVec 5) : (formatRRI op a b imm).extractLsb' 9 3 = regBits a := by
  apply BitVec.eq_of_getLsbD_eq
  intro i hi
  interval_cases i <;> simp only [formatRRI, BitVec.getLsbD_append, BitVec.getLsbD_extractLsb'] <;> simp

theorem formatRRI_mid (op : BitVec 4) (a b : Reg) (imm : BitVec 5) : (formatRRI op a b imm).extractLsb' 6 3 = regBits b := by
  apply BitVec.eq_of_getLsbD_eq
  intro i hi
  interval_cases i <;> simp only [formatRRI, BitVec.getLsbD_append, BitVec.getLsbD_extractLsb'] <;> simp

theorem formatRRI_imm (op : BitVec 4) (a b : Reg) (imm : BitVec 5) : (formatRRI op a b imm).extractLsb' 0 5 = imm := by
  apply BitVec.eq_of_getLsbD_eq
  intro i hi
  interval_cases i <;> simp only [formatRRI, BitVec.getLsbD_append, BitVec.getLsbD_extractLsb'] <;> simp

theorem formatRRI_bit5 (op : BitVec 4) (a b : Reg) (imm : BitVec 5) : (formatRRI op a b imm).getLsbD 5 = true := by
  simp only [formatRRI, BitVec.getLsbD_append]; simp

/-! Format RP9 (R52). -/

theorem formatRP9_opcode (op : BitVec 4) (r : Reg) (off : BitVec 9) : (formatRP9 op r off).extractLsb' 12 4 = op := by
  apply BitVec.eq_of_getLsbD_eq
  intro i hi
  interval_cases i <;> simp only [formatRP9, BitVec.getLsbD_append, BitVec.getLsbD_extractLsb'] <;> simp

/-- The selecting bits of the row (R55). -/
theorem formatRP9_row (op : BitVec 4) (r : Reg) (off : BitVec 9) : formatRP9 op r off &&& 0xF000#16 = op ++ 0#12 := by
  apply BitVec.eq_of_getLsbD_eq
  intro i hi
  interval_cases i <;> simp only [formatRP9, BitVec.getLsbD_append, BitVec.getLsbD_and] <;> simp

theorem formatRP9_high (op : BitVec 4) (r : Reg) (off : BitVec 9) : (formatRP9 op r off).extractLsb' 9 3 = regBits r := by
  apply BitVec.eq_of_getLsbD_eq
  intro i hi
  interval_cases i <;> simp only [formatRP9, BitVec.getLsbD_append, BitVec.getLsbD_extractLsb'] <;> simp

theorem formatRP9_off (op : BitVec 4) (r : Reg) (off : BitVec 9) : (formatRP9 op r off).extractLsb' 0 9 = off := by
  apply BitVec.eq_of_getLsbD_eq
  intro i hi
  interval_cases i <;> simp only [formatRP9, BitVec.getLsbD_append, BitVec.getLsbD_extractLsb'] <;> simp

/-! Format RB6 (R52). -/

theorem formatRB6_opcode (op : BitVec 4) (r base : Reg) (off : BitVec 6) : (formatRB6 op r base off).extractLsb' 12 4 = op := by
  apply BitVec.eq_of_getLsbD_eq
  intro i hi
  interval_cases i <;> simp only [formatRB6, BitVec.getLsbD_append, BitVec.getLsbD_extractLsb'] <;> simp

/-- The selecting bits of the row (R55). -/
theorem formatRB6_row (op : BitVec 4) (r base : Reg) (off : BitVec 6) : formatRB6 op r base off &&& 0xF000#16 = op ++ 0#12 := by
  apply BitVec.eq_of_getLsbD_eq
  intro i hi
  interval_cases i <;> simp only [formatRB6, BitVec.getLsbD_append, BitVec.getLsbD_and] <;> simp

theorem formatRB6_high (op : BitVec 4) (r base : Reg) (off : BitVec 6) : (formatRB6 op r base off).extractLsb' 9 3 = regBits r := by
  apply BitVec.eq_of_getLsbD_eq
  intro i hi
  interval_cases i <;> simp only [formatRB6, BitVec.getLsbD_append, BitVec.getLsbD_extractLsb'] <;> simp

theorem formatRB6_mid (op : BitVec 4) (r base : Reg) (off : BitVec 6) : (formatRB6 op r base off).extractLsb' 6 3 = regBits base := by
  apply BitVec.eq_of_getLsbD_eq
  intro i hi
  interval_cases i <;> simp only [formatRB6, BitVec.getLsbD_append, BitVec.getLsbD_extractLsb'] <;> simp

theorem formatRB6_off (op : BitVec 4) (r base : Reg) (off : BitVec 6) : (formatRB6 op r base off).extractLsb' 0 6 = off := by
  apply BitVec.eq_of_getLsbD_eq
  intro i hi
  interval_cases i <;> simp only [formatRB6, BitVec.getLsbD_append, BitVec.getLsbD_extractLsb'] <;> simp

/-! Format JR (R52). -/

theorem formatJR_opcode (op : BitVec 4) (base : Reg) : (formatJR op base).extractLsb' 12 4 = op := by
  apply BitVec.eq_of_getLsbD_eq
  intro i hi
  interval_cases i <;> simp only [formatJR, BitVec.getLsbD_append, BitVec.getLsbD_extractLsb'] <;> simp

/-- The selecting bits of the row (R55). -/
theorem formatJR_row (op : BitVec 4) (base : Reg) : formatJR op base &&& 0xF800#16 = op ++ 0#12 := by
  apply BitVec.eq_of_getLsbD_eq
  intro i hi
  interval_cases i <;> simp only [formatJR, BitVec.getLsbD_append, BitVec.getLsbD_and] <;> simp

theorem formatJR_mid (op : BitVec 4) (base : Reg) : (formatJR op base).extractLsb' 6 3 = regBits base := by
  apply BitVec.eq_of_getLsbD_eq
  intro i hi
  interval_cases i <;> simp only [formatJR, BitVec.getLsbD_append, BitVec.getLsbD_extractLsb'] <;> simp

theorem formatJR_bit11 (op : BitVec 4) (base : Reg) : (formatJR op base).getLsbD 11 = false := by
  simp only [formatJR, BitVec.getLsbD_append]; simp

/-! Format TV (R52). -/

theorem formatTV_opcode (v : BitVec 8) : (formatTV v).extractLsb' 12 4 = 0b1111#4 := by
  apply BitVec.eq_of_getLsbD_eq
  intro i hi
  interval_cases i <;> simp only [formatTV, BitVec.getLsbD_append, BitVec.getLsbD_extractLsb'] <;> simp

/-- The selecting bits of the row (R55). -/
theorem formatTV_row (v : BitVec 8) : formatTV v &&& 0xF000#16 = 0xF000#16 := by
  apply BitVec.eq_of_getLsbD_eq
  intro i hi
  interval_cases i <;> simp only [formatTV, BitVec.getLsbD_append, BitVec.getLsbD_and] <;> simp

theorem formatTV_vect (v : BitVec 8) : (formatTV v).extractLsb' 0 8 = v := by
  apply BitVec.eq_of_getLsbD_eq
  intro i hi
  interval_cases i <;> simp only [formatTV, BitVec.getLsbD_append, BitVec.getLsbD_extractLsb'] <;> simp

end Sys2Proof
end

