-- ==== Sys2Proof/Laws/Memory.lean ====
section
/-! SUPPORT. The laws of memory: every operation keeps the canonical form, a read after a write to the same place gives
the value written, and a write leaves every other place alone (20_memory.md R31, R32). -/

namespace Sys2Proof.Machine

/-! The canonical form. -/

/-- A lower bound of the canonical form may be lowered. -/
theorem memWfFrom_mono {lo lo' : Nat} (h : lo' ≤ lo) {m : Memory} (hm : memWfFrom lo m = true) :
    memWfFrom lo' m = true := by
  cases m with
  | nil => rfl
  | cons c rest =>
    obtain ⟨a, v⟩ := c
    simp only [memWfFrom, Bool.and_eq_true, decide_eq_true_eq] at hm ⊢
    exact ⟨⟨⟨by omega, hm.1.1.2⟩, hm.1.2⟩, hm.2⟩

/-- Below its lower bound a canonical memory lists no cell. -/
theorem readByte_below {lo : Nat} {m : Memory} (hm : memWfFrom lo m = true) {a : Nat} (h : a < lo) :
    readByte m a = unlistedByte := by
  induction m generalizing lo with
  | nil => rfl
  | cons c rest ih =>
    obtain ⟨b, v⟩ := c
    simp only [memWfFrom, Bool.and_eq_true, decide_eq_true_eq] at hm
    rw [readByte, if_neg (by omega)]
    exact ih hm.2 (by omega)

theorem consCell_wf {lo a : Nat} {m : Memory} (v : Byte) (hlo : lo ≤ a) (ha : a < cellCount)
    (hm : memWfFrom (a + 1) m = true) : memWfFrom lo (consCell a v m) = true := by
  unfold consCell
  split
  · exact memWfFrom_mono (by omega) hm
  · simp_all [memWfFrom]

theorem writeByte_wfFrom {lo a : Nat} {m : Memory} (v : Byte) (hlo : lo ≤ a) (ha : a < cellCount)
    (hm : memWfFrom lo m = true) : memWfFrom lo (writeByte m a v) = true := by
  induction m generalizing lo with
  | nil => exact consCell_wf v hlo ha rfl
  | cons c rest ih =>
    obtain ⟨b, w⟩ := c
    simp only [memWfFrom, Bool.and_eq_true, decide_eq_true_eq] at hm
    unfold writeByte
    split
    · refine consCell_wf v hlo ha ?_
      simp only [memWfFrom, Bool.and_eq_true, decide_eq_true_eq]
      exact ⟨⟨⟨by omega, hm.1.1.2⟩, hm.1.2⟩, hm.2⟩
    · split
      · rename_i h; subst h; exact consCell_wf v hlo ha hm.2
      · simp only [memWfFrom, Bool.and_eq_true, decide_eq_true_eq]
        exact ⟨hm.1, ih (by omega) hm.2⟩

/-- Setting a cell of the memory keeps the canonical form. -/
theorem writeByte_wf {m : Memory} {a : Nat} (v : Byte) (ha : a < cellCount) (hm : memWf m = true) :
    memWf (writeByte m a v) = true :=
  writeByte_wfFrom v (Nat.zero_le a) ha hm

theorem highCell_lt (a : Word) : highCell a < cellCount := by
  have := a.isLt; unfold highCell cellCount; omega

theorem lowCell_lt (a : Word) : lowCell a < cellCount := by
  have := a.isLt; unfold lowCell cellCount; omega

/-- `MemWrite` keeps the canonical form. -/
theorem writeWord_wf {m : Memory} (a v : Word) (hm : memWf m = true) : memWf (writeWord m a v) = true :=
  writeByte_wf _ (lowCell_lt a) (writeByte_wf _ (highCell_lt a) hm)

/-- Memory after reset has the canonical form. -/
theorem reset_memWf : memWf State.reset.mem = true := rfl

/-! Reading after writing. -/

theorem readByte_consCell_ne {a b : Nat} (h : b ≠ a) (v : Byte) (m : Memory) :
    readByte (consCell a v m) b = readByte m b := by
  unfold consCell; split
  · rfl
  · rw [readByte, if_neg h]

/-- Setting a cell leaves every other cell alone, in every memory. -/
theorem readByte_writeByte_ne {a b : Nat} (h : b ≠ a) (v : Byte) (m : Memory) :
    readByte (writeByte m a v) b = readByte m b := by
  induction m with
  | nil => exact readByte_consCell_ne h v []
  | cons c rest ih =>
    obtain ⟨d, w⟩ := c
    unfold writeByte
    split
    · exact readByte_consCell_ne h v _
    · split
      · rename_i hd; subst hd; rw [readByte_consCell_ne h, readByte, if_neg h]
      · simp only [readByte, ih]

theorem readByte_consCell_self {lo a : Nat} {m : Memory} (v : Byte) (hm : memWfFrom lo m = true) (h : a < lo) :
    readByte (consCell a v m) a = v := by
  unfold consCell; split
  · rw [readByte_below hm h]; simp_all
  · simp [readByte]

theorem readByte_writeByte_selfFrom {lo a : Nat} {m : Memory} (v : Byte) (hm : memWfFrom lo m = true) :
    readByte (writeByte m a v) a = v := by
  induction m generalizing lo with
  | nil => exact readByte_consCell_self (lo := a + 1) v rfl (by omega)
  | cons c rest ih =>
    obtain ⟨b, w⟩ := c
    unfold writeByte
    split
    · rename_i h
      refine readByte_consCell_self (lo := b) v ?_ h
      simp only [memWfFrom, Bool.and_eq_true, decide_eq_true_eq] at hm ⊢
      exact ⟨⟨⟨by omega, hm.1.1.2⟩, hm.1.2⟩, hm.2⟩
    · simp only [memWfFrom, Bool.and_eq_true, decide_eq_true_eq] at hm
      split
      · rename_i h; subst h; exact readByte_consCell_self v hm.2 (by omega)
      · rename_i h; rw [readByte, if_neg h]; exact ih hm.2

/-- Reading the cell just set gives the value, in a canonical memory. -/
theorem readByte_writeByte_self {m : Memory} (a : Nat) (v : Byte) (hm : memWf m = true) :
    readByte (writeByte m a v) a = v :=
  readByte_writeByte_selfFrom v hm

/-- The cells `MemWrite` does not own are left alone, in every memory. -/
theorem readByte_writeWord_ne {a : Word} {n : Nat} (hh : n ≠ highCell a) (hl : n ≠ lowCell a) (v : Word) (m : Memory) :
    readByte (writeWord m a v) n = readByte m n := by
  unfold writeWord; rw [readByte_writeByte_ne hl, readByte_writeByte_ne hh]

/-- `MemWrite(a, v)` leaves every other word alone, in every memory (R32). -/
theorem readWord_writeWord_ne {a b : Word} (h : b ≠ a) (v : Word) (m : Memory) :
    readWord (writeWord m a v) b = readWord m b := by
  have hab : b.toNat ≠ a.toNat := fun e => h (BitVec.eq_of_toNat_eq e)
  unfold readWord
  rw [readByte_writeWord_ne, readByte_writeWord_ne] <;> (simp only [highCell, lowCell]; omega)

/-- The two bytes of a word, put together again. -/
theorem extract_append_extract (v : Word) : v.extractLsb' 8 8 ++ v.extractLsb' 0 8 = v := by
  apply BitVec.eq_of_getLsbD_eq
  intro i hi
  simp only [BitVec.getLsbD_append, BitVec.getLsbD_extractLsb']
  by_cases h : i < 8
  · simp [h]
  · have : 8 + (i - 8) = i := by omega
    have h' : i - 8 < 8 := by omega
    simp [h, h', this]

/-- `MemRead(a)` after `MemWrite(a, v)` returns `v`, in a canonical memory (R31, R32). -/
theorem readWord_writeWord_self {m : Memory} (a v : Word) (hm : memWf m = true) :
    readWord (writeWord m a v) a = v := by
  unfold readWord writeWord
  rw [readByte_writeByte_self _ _ (writeByte_wf _ (highCell_lt a) hm),
    readByte_writeByte_ne (by unfold highCell lowCell; omega), readByte_writeByte_self _ _ hm]
  exact extract_append_extract v

end Sys2Proof.Machine
end

