-- ==== Sys2Proof/Laws/State.lean ====
section
/-! SUPPORT. The small lemmas of the state: one per field per update, so that no later proof unfolds a record update. -/

namespace Sys2Proof.Machine

variable (s : State)

/-! Fields after `setReg`. -/

@[simp] theorem setReg_regs (r : Reg) (v : Word) : (setReg r v s).regs = regWrite s.regs v r := rfl
@[simp] theorem setReg_pc (r : Reg) (v : Word) : (setReg r v s).pc = s.pc := rfl
@[simp] theorem setReg_cond (r : Reg) (v : Word) : (setReg r v s).cond = s.cond := rfl
@[simp] theorem setReg_ir (r : Reg) (v : Word) : (setReg r v s).ir = s.ir := rfl
@[simp] theorem setReg_running (r : Reg) (v : Word) : (setReg r v s).running = s.running := rfl
@[simp] theorem setReg_abnormal (r : Reg) (v : Word) : (setReg r v s).abnormal = s.abnormal := rfl
@[simp] theorem setReg_abnormalLog (r : Reg) (v : Word) : (setReg r v s).abnormalLog = s.abnormalLog := rfl
@[simp] theorem setReg_fault (r : Reg) (v : Word) : (setReg r v s).fault = s.fault := rfl
@[simp] theorem setReg_debuggerEnabled (r : Reg) (v : Word) : (setReg r v s).debuggerEnabled = s.debuggerEnabled := rfl
@[simp] theorem setReg_debuggerSteps (r : Reg) (v : Word) : (setReg r v s).debuggerSteps = s.debuggerSteps := rfl
@[simp] theorem setReg_breakpoints (r : Reg) (v : Word) : (setReg r v s).breakpoints = s.breakpoints := rfl
@[simp] theorem setReg_cout (r : Reg) (v : Word) : (setReg r v s).cout = s.cout := rfl
@[simp] theorem setReg_cin (r : Reg) (v : Word) : (setReg r v s).cin = s.cin := rfl
@[simp] theorem setReg_mem (r : Reg) (v : Word) : (setReg r v s).mem = s.mem := rfl
@[simp] theorem setReg_fetchAddr (r : Reg) (v : Word) : (setReg r v s).fetchAddr = s.fetchAddr := rfl
@[simp] theorem setReg_phase (r : Reg) (v : Word) : (setReg r v s).phase = s.phase := rfl
@[simp] theorem setReg_eaPolicy (r : Reg) (v : Word) : (setReg r v s).eaPolicy = s.eaPolicy := rfl

/-! Fields after `setPc`. -/

@[simp] theorem setPc_regs (t : Word) : (setPc t s).regs = s.regs := rfl
@[simp] theorem setPc_pc (t : Word) : (setPc t s).pc = t := rfl
@[simp] theorem setPc_cond (t : Word) : (setPc t s).cond = s.cond := rfl
@[simp] theorem setPc_ir (t : Word) : (setPc t s).ir = s.ir := rfl
@[simp] theorem setPc_running (t : Word) : (setPc t s).running = s.running := rfl
@[simp] theorem setPc_abnormal (t : Word) : (setPc t s).abnormal = s.abnormal := rfl
@[simp] theorem setPc_abnormalLog (t : Word) : (setPc t s).abnormalLog = s.abnormalLog := rfl
@[simp] theorem setPc_fault (t : Word) : (setPc t s).fault = s.fault := rfl
@[simp] theorem setPc_debuggerEnabled (t : Word) : (setPc t s).debuggerEnabled = s.debuggerEnabled := rfl
@[simp] theorem setPc_debuggerSteps (t : Word) : (setPc t s).debuggerSteps = s.debuggerSteps := rfl
@[simp] theorem setPc_breakpoints (t : Word) : (setPc t s).breakpoints = s.breakpoints := rfl
@[simp] theorem setPc_cout (t : Word) : (setPc t s).cout = s.cout := rfl
@[simp] theorem setPc_cin (t : Word) : (setPc t s).cin = s.cin := rfl
@[simp] theorem setPc_mem (t : Word) : (setPc t s).mem = s.mem := rfl
@[simp] theorem setPc_fetchAddr (t : Word) : (setPc t s).fetchAddr = s.fetchAddr := rfl
@[simp] theorem setPc_phase (t : Word) : (setPc t s).phase = s.phase := rfl
@[simp] theorem setPc_eaPolicy (t : Word) : (setPc t s).eaPolicy = s.eaPolicy := rfl

/-! Fields after `setcc`. -/

@[simp] theorem setcc_regs (v : Word) : (setcc v s).regs = s.regs := rfl
@[simp] theorem setcc_pc (v : Word) : (setcc v s).pc = s.pc := rfl
@[simp] theorem setcc_cond (v : Word) : (setcc v s).cond = ccOf v := rfl
@[simp] theorem setcc_ir (v : Word) : (setcc v s).ir = s.ir := rfl
@[simp] theorem setcc_running (v : Word) : (setcc v s).running = s.running := rfl
@[simp] theorem setcc_abnormal (v : Word) : (setcc v s).abnormal = s.abnormal := rfl
@[simp] theorem setcc_abnormalLog (v : Word) : (setcc v s).abnormalLog = s.abnormalLog := rfl
@[simp] theorem setcc_fault (v : Word) : (setcc v s).fault = s.fault := rfl
@[simp] theorem setcc_debuggerEnabled (v : Word) : (setcc v s).debuggerEnabled = s.debuggerEnabled := rfl
@[simp] theorem setcc_debuggerSteps (v : Word) : (setcc v s).debuggerSteps = s.debuggerSteps := rfl
@[simp] theorem setcc_breakpoints (v : Word) : (setcc v s).breakpoints = s.breakpoints := rfl
@[simp] theorem setcc_cout (v : Word) : (setcc v s).cout = s.cout := rfl
@[simp] theorem setcc_cin (v : Word) : (setcc v s).cin = s.cin := rfl
@[simp] theorem setcc_mem (v : Word) : (setcc v s).mem = s.mem := rfl
@[simp] theorem setcc_fetchAddr (v : Word) : (setcc v s).fetchAddr = s.fetchAddr := rfl
@[simp] theorem setcc_phase (v : Word) : (setcc v s).phase = s.phase := rfl
@[simp] theorem setcc_eaPolicy (v : Word) : (setcc v s).eaPolicy = s.eaPolicy := rfl

/-! Fields after `writeDest`. -/

@[simp] theorem writeDest_regs (r : Reg) (v : Word) : (writeDest r v s).regs = regWrite s.regs v r := rfl
@[simp] theorem writeDest_pc (r : Reg) (v : Word) : (writeDest r v s).pc = s.pc := rfl
@[simp] theorem writeDest_cond (r : Reg) (v : Word) : (writeDest r v s).cond = ccOf v := rfl
@[simp] theorem writeDest_ir (r : Reg) (v : Word) : (writeDest r v s).ir = s.ir := rfl
@[simp] theorem writeDest_running (r : Reg) (v : Word) : (writeDest r v s).running = s.running := rfl
@[simp] theorem writeDest_abnormal (r : Reg) (v : Word) : (writeDest r v s).abnormal = s.abnormal := rfl
@[simp] theorem writeDest_abnormalLog (r : Reg) (v : Word) : (writeDest r v s).abnormalLog = s.abnormalLog := rfl
@[simp] theorem writeDest_fault (r : Reg) (v : Word) : (writeDest r v s).fault = s.fault := rfl
@[simp] theorem writeDest_debuggerEnabled (r : Reg) (v : Word) : (writeDest r v s).debuggerEnabled = s.debuggerEnabled := rfl
@[simp] theorem writeDest_debuggerSteps (r : Reg) (v : Word) : (writeDest r v s).debuggerSteps = s.debuggerSteps := rfl
@[simp] theorem writeDest_breakpoints (r : Reg) (v : Word) : (writeDest r v s).breakpoints = s.breakpoints := rfl
@[simp] theorem writeDest_cout (r : Reg) (v : Word) : (writeDest r v s).cout = s.cout := rfl
@[simp] theorem writeDest_cin (r : Reg) (v : Word) : (writeDest r v s).cin = s.cin := rfl
@[simp] theorem writeDest_mem (r : Reg) (v : Word) : (writeDest r v s).mem = s.mem := rfl
@[simp] theorem writeDest_fetchAddr (r : Reg) (v : Word) : (writeDest r v s).fetchAddr = s.fetchAddr := rfl
@[simp] theorem writeDest_phase (r : Reg) (v : Word) : (writeDest r v s).phase = s.phase := rfl
@[simp] theorem writeDest_eaPolicy (r : Reg) (v : Word) : (writeDest r v s).eaPolicy = s.eaPolicy := rfl

/-! Fields after `storeWord`. -/

@[simp] theorem storeWord_regs (a v : Word) : (storeWord a v s).regs = s.regs := rfl
@[simp] theorem storeWord_pc (a v : Word) : (storeWord a v s).pc = s.pc := rfl
@[simp] theorem storeWord_cond (a v : Word) : (storeWord a v s).cond = s.cond := rfl
@[simp] theorem storeWord_ir (a v : Word) : (storeWord a v s).ir = s.ir := rfl
@[simp] theorem storeWord_running (a v : Word) : (storeWord a v s).running = s.running := rfl
@[simp] theorem storeWord_abnormal (a v : Word) : (storeWord a v s).abnormal = s.abnormal := rfl
@[simp] theorem storeWord_abnormalLog (a v : Word) : (storeWord a v s).abnormalLog = s.abnormalLog := rfl
@[simp] theorem storeWord_fault (a v : Word) : (storeWord a v s).fault = s.fault := rfl
@[simp] theorem storeWord_debuggerEnabled (a v : Word) : (storeWord a v s).debuggerEnabled = s.debuggerEnabled := rfl
@[simp] theorem storeWord_debuggerSteps (a v : Word) : (storeWord a v s).debuggerSteps = s.debuggerSteps := rfl
@[simp] theorem storeWord_breakpoints (a v : Word) : (storeWord a v s).breakpoints = s.breakpoints := rfl
@[simp] theorem storeWord_cout (a v : Word) : (storeWord a v s).cout = s.cout := rfl
@[simp] theorem storeWord_cin (a v : Word) : (storeWord a v s).cin = s.cin := rfl
@[simp] theorem storeWord_mem (a v : Word) : (storeWord a v s).mem = writeWord s.mem a v := rfl
@[simp] theorem storeWord_fetchAddr (a v : Word) : (storeWord a v s).fetchAddr = s.fetchAddr := rfl
@[simp] theorem storeWord_phase (a v : Word) : (storeWord a v s).phase = s.phase := rfl
@[simp] theorem storeWord_eaPolicy (a v : Word) : (storeWord a v s).eaPolicy = s.eaPolicy := rfl

/-! Fields after `linkReturn`. -/

@[simp] theorem linkReturn_regs : (linkReturn s).regs = regWrite s.regs s.pc .r7 := rfl
@[simp] theorem linkReturn_pc : (linkReturn s).pc = s.pc := rfl
@[simp] theorem linkReturn_cond : (linkReturn s).cond = s.cond := rfl
@[simp] theorem linkReturn_ir : (linkReturn s).ir = s.ir := rfl
@[simp] theorem linkReturn_running : (linkReturn s).running = s.running := rfl
@[simp] theorem linkReturn_abnormal : (linkReturn s).abnormal = s.abnormal := rfl
@[simp] theorem linkReturn_abnormalLog : (linkReturn s).abnormalLog = s.abnormalLog := rfl
@[simp] theorem linkReturn_fault : (linkReturn s).fault = s.fault := rfl
@[simp] theorem linkReturn_debuggerEnabled : (linkReturn s).debuggerEnabled = s.debuggerEnabled := rfl
@[simp] theorem linkReturn_debuggerSteps : (linkReturn s).debuggerSteps = s.debuggerSteps := rfl
@[simp] theorem linkReturn_breakpoints : (linkReturn s).breakpoints = s.breakpoints := rfl
@[simp] theorem linkReturn_cout : (linkReturn s).cout = s.cout := rfl
@[simp] theorem linkReturn_cin : (linkReturn s).cin = s.cin := rfl
@[simp] theorem linkReturn_mem : (linkReturn s).mem = s.mem := rfl
@[simp] theorem linkReturn_fetchAddr : (linkReturn s).fetchAddr = s.fetchAddr := rfl
@[simp] theorem linkReturn_phase : (linkReturn s).phase = s.phase := rfl
@[simp] theorem linkReturn_eaPolicy : (linkReturn s).eaPolicy = s.eaPolicy := rfl

/-! Fields after `consoleOut`. -/

@[simp] theorem consoleOut_regs (bs : List Byte) : (consoleOut bs s).regs = s.regs := rfl
@[simp] theorem consoleOut_pc (bs : List Byte) : (consoleOut bs s).pc = s.pc := rfl
@[simp] theorem consoleOut_cond (bs : List Byte) : (consoleOut bs s).cond = s.cond := rfl
@[simp] theorem consoleOut_ir (bs : List Byte) : (consoleOut bs s).ir = s.ir := rfl
@[simp] theorem consoleOut_running (bs : List Byte) : (consoleOut bs s).running = s.running := rfl
@[simp] theorem consoleOut_abnormal (bs : List Byte) : (consoleOut bs s).abnormal = s.abnormal := rfl
@[simp] theorem consoleOut_abnormalLog (bs : List Byte) : (consoleOut bs s).abnormalLog = s.abnormalLog := rfl
@[simp] theorem consoleOut_fault (bs : List Byte) : (consoleOut bs s).fault = s.fault := rfl
@[simp] theorem consoleOut_debuggerEnabled (bs : List Byte) : (consoleOut bs s).debuggerEnabled = s.debuggerEnabled := rfl
@[simp] theorem consoleOut_debuggerSteps (bs : List Byte) : (consoleOut bs s).debuggerSteps = s.debuggerSteps := rfl
@[simp] theorem consoleOut_breakpoints (bs : List Byte) : (consoleOut bs s).breakpoints = s.breakpoints := rfl
@[simp] theorem consoleOut_cout (bs : List Byte) : (consoleOut bs s).cout = s.cout ++ bs := rfl
@[simp] theorem consoleOut_cin (bs : List Byte) : (consoleOut bs s).cin = s.cin := rfl
@[simp] theorem consoleOut_mem (bs : List Byte) : (consoleOut bs s).mem = s.mem := rfl
@[simp] theorem consoleOut_fetchAddr (bs : List Byte) : (consoleOut bs s).fetchAddr = s.fetchAddr := rfl
@[simp] theorem consoleOut_phase (bs : List Byte) : (consoleOut bs s).phase = s.phase := rfl
@[simp] theorem consoleOut_eaPolicy (bs : List Byte) : (consoleOut bs s).eaPolicy = s.eaPolicy := rfl

/-! Fields after `raiseHalt`. -/

@[simp] theorem raiseHalt_regs : (raiseHalt s).regs = s.regs := rfl
@[simp] theorem raiseHalt_pc : (raiseHalt s).pc = s.pc := rfl
@[simp] theorem raiseHalt_cond : (raiseHalt s).cond = s.cond := rfl
@[simp] theorem raiseHalt_ir : (raiseHalt s).ir = s.ir := rfl
@[simp] theorem raiseHalt_running : (raiseHalt s).running = false := rfl
@[simp] theorem raiseHalt_abnormal : (raiseHalt s).abnormal = s.abnormal := rfl
@[simp] theorem raiseHalt_abnormalLog : (raiseHalt s).abnormalLog = s.abnormalLog := rfl
@[simp] theorem raiseHalt_fault : (raiseHalt s).fault = s.fault := rfl
@[simp] theorem raiseHalt_debuggerEnabled : (raiseHalt s).debuggerEnabled = s.debuggerEnabled := rfl
@[simp] theorem raiseHalt_debuggerSteps : (raiseHalt s).debuggerSteps = s.debuggerSteps := rfl
@[simp] theorem raiseHalt_breakpoints : (raiseHalt s).breakpoints = s.breakpoints := rfl
@[simp] theorem raiseHalt_cout : (raiseHalt s).cout = s.cout := rfl
@[simp] theorem raiseHalt_cin : (raiseHalt s).cin = s.cin := rfl
@[simp] theorem raiseHalt_mem : (raiseHalt s).mem = s.mem := rfl
@[simp] theorem raiseHalt_fetchAddr : (raiseHalt s).fetchAddr = s.fetchAddr := rfl
@[simp] theorem raiseHalt_phase : (raiseHalt s).phase = s.phase := rfl
@[simp] theorem raiseHalt_eaPolicy : (raiseHalt s).eaPolicy = s.eaPolicy := rfl

/-! Fields after `raiseAbnormal`. -/

@[simp] theorem raiseAbnormal_regs (r : AbnormalReason) : (raiseAbnormal r s).regs = s.regs := rfl
@[simp] theorem raiseAbnormal_pc (r : AbnormalReason) : (raiseAbnormal r s).pc = s.pc := rfl
@[simp] theorem raiseAbnormal_cond (r : AbnormalReason) : (raiseAbnormal r s).cond = s.cond := rfl
@[simp] theorem raiseAbnormal_ir (r : AbnormalReason) : (raiseAbnormal r s).ir = s.ir := rfl
@[simp] theorem raiseAbnormal_running (r : AbnormalReason) : (raiseAbnormal r s).running = s.running := rfl
@[simp] theorem raiseAbnormal_abnormal (r : AbnormalReason) : (raiseAbnormal r s).abnormal = true := rfl
@[simp] theorem raiseAbnormal_abnormalLog (r : AbnormalReason) : (raiseAbnormal r s).abnormalLog = s.abnormalLog ++ [(s.fetchAddr, r)] := rfl
@[simp] theorem raiseAbnormal_fault (r : AbnormalReason) : (raiseAbnormal r s).fault = s.fault := rfl
@[simp] theorem raiseAbnormal_debuggerEnabled (r : AbnormalReason) : (raiseAbnormal r s).debuggerEnabled = s.debuggerEnabled := rfl
@[simp] theorem raiseAbnormal_debuggerSteps (r : AbnormalReason) : (raiseAbnormal r s).debuggerSteps = s.debuggerSteps := rfl
@[simp] theorem raiseAbnormal_breakpoints (r : AbnormalReason) : (raiseAbnormal r s).breakpoints = s.breakpoints := rfl
@[simp] theorem raiseAbnormal_cout (r : AbnormalReason) : (raiseAbnormal r s).cout = s.cout := rfl
@[simp] theorem raiseAbnormal_cin (r : AbnormalReason) : (raiseAbnormal r s).cin = s.cin := rfl
@[simp] theorem raiseAbnormal_mem (r : AbnormalReason) : (raiseAbnormal r s).mem = s.mem := rfl
@[simp] theorem raiseAbnormal_fetchAddr (r : AbnormalReason) : (raiseAbnormal r s).fetchAddr = s.fetchAddr := rfl
@[simp] theorem raiseAbnormal_phase (r : AbnormalReason) : (raiseAbnormal r s).phase = s.phase := rfl
@[simp] theorem raiseAbnormal_eaPolicy (r : AbnormalReason) : (raiseAbnormal r s).eaPolicy = s.eaPolicy := rfl

/-! Fields after `raiseMemoryFault`. -/

@[simp] theorem raiseMemoryFault_regs (i : Int) : (raiseMemoryFault i s).regs = s.regs := rfl
@[simp] theorem raiseMemoryFault_pc (i : Int) : (raiseMemoryFault i s).pc = s.pc := rfl
@[simp] theorem raiseMemoryFault_cond (i : Int) : (raiseMemoryFault i s).cond = s.cond := rfl
@[simp] theorem raiseMemoryFault_ir (i : Int) : (raiseMemoryFault i s).ir = s.ir := rfl
@[simp] theorem raiseMemoryFault_running (i : Int) : (raiseMemoryFault i s).running = false := rfl
@[simp] theorem raiseMemoryFault_abnormal (i : Int) : (raiseMemoryFault i s).abnormal = s.abnormal := rfl
@[simp] theorem raiseMemoryFault_abnormalLog (i : Int) : (raiseMemoryFault i s).abnormalLog = s.abnormalLog := rfl
@[simp] theorem raiseMemoryFault_fault (i : Int) : (raiseMemoryFault i s).fault = .memoryFault i := rfl
@[simp] theorem raiseMemoryFault_debuggerEnabled (i : Int) : (raiseMemoryFault i s).debuggerEnabled = s.debuggerEnabled := rfl
@[simp] theorem raiseMemoryFault_debuggerSteps (i : Int) : (raiseMemoryFault i s).debuggerSteps = s.debuggerSteps := rfl
@[simp] theorem raiseMemoryFault_breakpoints (i : Int) : (raiseMemoryFault i s).breakpoints = s.breakpoints := rfl
@[simp] theorem raiseMemoryFault_cout (i : Int) : (raiseMemoryFault i s).cout = s.cout := rfl
@[simp] theorem raiseMemoryFault_cin (i : Int) : (raiseMemoryFault i s).cin = s.cin := rfl
@[simp] theorem raiseMemoryFault_mem (i : Int) : (raiseMemoryFault i s).mem = s.mem := rfl
@[simp] theorem raiseMemoryFault_fetchAddr (i : Int) : (raiseMemoryFault i s).fetchAddr = s.fetchAddr := rfl
@[simp] theorem raiseMemoryFault_phase (i : Int) : (raiseMemoryFault i s).phase = s.phase := rfl
@[simp] theorem raiseMemoryFault_eaPolicy (i : Int) : (raiseMemoryFault i s).eaPolicy = s.eaPolicy := rfl

/-! Fields after `fetch`. -/

@[simp] theorem fetch_regs : (fetch s).regs = s.regs := rfl
@[simp] theorem fetch_pc : (fetch s).pc = s.pc := rfl
@[simp] theorem fetch_cond : (fetch s).cond = s.cond := rfl
@[simp] theorem fetch_ir : (fetch s).ir = readWord s.mem s.pc := rfl
@[simp] theorem fetch_running : (fetch s).running = s.running := rfl
@[simp] theorem fetch_abnormal : (fetch s).abnormal = s.abnormal := rfl
@[simp] theorem fetch_abnormalLog : (fetch s).abnormalLog = s.abnormalLog := rfl
@[simp] theorem fetch_fault : (fetch s).fault = s.fault := rfl
@[simp] theorem fetch_debuggerEnabled : (fetch s).debuggerEnabled = s.debuggerEnabled := rfl
@[simp] theorem fetch_debuggerSteps : (fetch s).debuggerSteps = s.debuggerSteps := rfl
@[simp] theorem fetch_breakpoints : (fetch s).breakpoints = s.breakpoints := rfl
@[simp] theorem fetch_cout : (fetch s).cout = s.cout := rfl
@[simp] theorem fetch_cin : (fetch s).cin = s.cin := rfl
@[simp] theorem fetch_mem : (fetch s).mem = s.mem := rfl
@[simp] theorem fetch_fetchAddr : (fetch s).fetchAddr = s.pc := rfl
@[simp] theorem fetch_phase : (fetch s).phase = s.phase := rfl
@[simp] theorem fetch_eaPolicy : (fetch s).eaPolicy = s.eaPolicy := rfl

/-! Fields after `debugEnter`. -/

@[simp] theorem debugEnter_regs (m : Option Word) : (debugEnter m s).regs = s.regs := rfl
@[simp] theorem debugEnter_pc (m : Option Word) : (debugEnter m s).pc = s.pc := rfl
@[simp] theorem debugEnter_cond (m : Option Word) : (debugEnter m s).cond = s.cond := rfl
@[simp] theorem debugEnter_ir (m : Option Word) : (debugEnter m s).ir = s.ir := rfl
@[simp] theorem debugEnter_running (m : Option Word) : (debugEnter m s).running = s.running := rfl
@[simp] theorem debugEnter_abnormal (m : Option Word) : (debugEnter m s).abnormal = s.abnormal := rfl
@[simp] theorem debugEnter_abnormalLog (m : Option Word) : (debugEnter m s).abnormalLog = s.abnormalLog := rfl
@[simp] theorem debugEnter_fault (m : Option Word) : (debugEnter m s).fault = s.fault := rfl
@[simp] theorem debugEnter_debuggerEnabled (m : Option Word) : (debugEnter m s).debuggerEnabled = s.debuggerEnabled := rfl
@[simp] theorem debugEnter_debuggerSteps (m : Option Word) : (debugEnter m s).debuggerSteps = s.debuggerSteps := rfl
@[simp] theorem debugEnter_breakpoints (m : Option Word) : (debugEnter m s).breakpoints = s.breakpoints := rfl
@[simp] theorem debugEnter_cout (m : Option Word) : (debugEnter m s).cout = s.cout := rfl
@[simp] theorem debugEnter_cin (m : Option Word) : (debugEnter m s).cin = s.cin := rfl
@[simp] theorem debugEnter_mem (m : Option Word) : (debugEnter m s).mem = s.mem := rfl
@[simp] theorem debugEnter_fetchAddr (m : Option Word) : (debugEnter m s).fetchAddr = s.fetchAddr := rfl
@[simp] theorem debugEnter_phase (m : Option Word) : (debugEnter m s).phase = .inDebugEnter m := rfl
@[simp] theorem debugEnter_eaPolicy (m : Option Word) : (debugEnter m s).eaPolicy = s.eaPolicy := rfl

/-! Fields after `advancePc`. -/

@[simp] theorem advancePc_regs : (advancePc s).regs = s.regs := rfl
@[simp] theorem advancePc_pc : (advancePc s).pc = s.pc + 1#16 := rfl
@[simp] theorem advancePc_cond : (advancePc s).cond = s.cond := rfl
@[simp] theorem advancePc_ir : (advancePc s).ir = s.ir := rfl
@[simp] theorem advancePc_running : (advancePc s).running = s.running := rfl
@[simp] theorem advancePc_abnormal : (advancePc s).abnormal = s.abnormal := rfl
@[simp] theorem advancePc_abnormalLog : (advancePc s).abnormalLog = s.abnormalLog := rfl
@[simp] theorem advancePc_fault : (advancePc s).fault = s.fault := rfl
@[simp] theorem advancePc_debuggerEnabled : (advancePc s).debuggerEnabled = s.debuggerEnabled := rfl
@[simp] theorem advancePc_debuggerSteps : (advancePc s).debuggerSteps = s.debuggerSteps := rfl
@[simp] theorem advancePc_breakpoints : (advancePc s).breakpoints = s.breakpoints := rfl
@[simp] theorem advancePc_cout : (advancePc s).cout = s.cout := rfl
@[simp] theorem advancePc_cin : (advancePc s).cin = s.cin := rfl
@[simp] theorem advancePc_mem : (advancePc s).mem = s.mem := rfl
@[simp] theorem advancePc_fetchAddr : (advancePc s).fetchAddr = s.fetchAddr := rfl
@[simp] theorem advancePc_phase : (advancePc s).phase = s.phase := rfl
@[simp] theorem advancePc_eaPolicy : (advancePc s).eaPolicy = s.eaPolicy := rfl

/-! Fields after `toReady`. -/

@[simp] theorem toReady_regs : (toReady s).regs = s.regs := rfl
@[simp] theorem toReady_pc : (toReady s).pc = s.pc := rfl
@[simp] theorem toReady_cond : (toReady s).cond = s.cond := rfl
@[simp] theorem toReady_ir : (toReady s).ir = s.ir := rfl
@[simp] theorem toReady_running : (toReady s).running = s.running := rfl
@[simp] theorem toReady_abnormal : (toReady s).abnormal = s.abnormal := rfl
@[simp] theorem toReady_abnormalLog : (toReady s).abnormalLog = s.abnormalLog := rfl
@[simp] theorem toReady_fault : (toReady s).fault = s.fault := rfl
@[simp] theorem toReady_debuggerEnabled : (toReady s).debuggerEnabled = s.debuggerEnabled := rfl
@[simp] theorem toReady_debuggerSteps : (toReady s).debuggerSteps = s.debuggerSteps := rfl
@[simp] theorem toReady_breakpoints : (toReady s).breakpoints = s.breakpoints := rfl
@[simp] theorem toReady_cout : (toReady s).cout = s.cout := rfl
@[simp] theorem toReady_cin : (toReady s).cin = s.cin := rfl
@[simp] theorem toReady_mem : (toReady s).mem = s.mem := rfl
@[simp] theorem toReady_fetchAddr : (toReady s).fetchAddr = s.fetchAddr := rfl
@[simp] theorem toReady_phase : (toReady s).phase = .ready := rfl
@[simp] theorem toReady_eaPolicy : (toReady s).eaPolicy = s.eaPolicy := rfl

/-! Fields after `supplyInput`. -/

@[simp] theorem supplyInput_regs (b : Byte) : (supplyInput b s).regs = s.regs := rfl
@[simp] theorem supplyInput_pc (b : Byte) : (supplyInput b s).pc = s.pc := rfl
@[simp] theorem supplyInput_cond (b : Byte) : (supplyInput b s).cond = s.cond := rfl
@[simp] theorem supplyInput_ir (b : Byte) : (supplyInput b s).ir = s.ir := rfl
@[simp] theorem supplyInput_running (b : Byte) : (supplyInput b s).running = s.running := rfl
@[simp] theorem supplyInput_abnormal (b : Byte) : (supplyInput b s).abnormal = s.abnormal := rfl
@[simp] theorem supplyInput_abnormalLog (b : Byte) : (supplyInput b s).abnormalLog = s.abnormalLog := rfl
@[simp] theorem supplyInput_fault (b : Byte) : (supplyInput b s).fault = s.fault := rfl
@[simp] theorem supplyInput_debuggerEnabled (b : Byte) : (supplyInput b s).debuggerEnabled = s.debuggerEnabled := rfl
@[simp] theorem supplyInput_debuggerSteps (b : Byte) : (supplyInput b s).debuggerSteps = s.debuggerSteps := rfl
@[simp] theorem supplyInput_breakpoints (b : Byte) : (supplyInput b s).breakpoints = s.breakpoints := rfl
@[simp] theorem supplyInput_cout (b : Byte) : (supplyInput b s).cout = s.cout := rfl
@[simp] theorem supplyInput_cin (b : Byte) : (supplyInput b s).cin = s.cin ++ [b] := rfl
@[simp] theorem supplyInput_mem (b : Byte) : (supplyInput b s).mem = s.mem := rfl
@[simp] theorem supplyInput_fetchAddr (b : Byte) : (supplyInput b s).fetchAddr = s.fetchAddr := rfl
@[simp] theorem supplyInput_phase (b : Byte) : (supplyInput b s).phase = s.phase := rfl
@[simp] theorem supplyInput_eaPolicy (b : Byte) : (supplyInput b s).eaPolicy = s.eaPolicy := rfl

/-! Fields after `startRun`. -/

@[simp] theorem startRun_regs : (startRun s).regs = s.regs := rfl
@[simp] theorem startRun_pc : (startRun s).pc = Config.pcStart := rfl
@[simp] theorem startRun_cond : (startRun s).cond = s.cond := rfl
@[simp] theorem startRun_ir : (startRun s).ir = s.ir := rfl
@[simp] theorem startRun_running : (startRun s).running = true := rfl
@[simp] theorem startRun_abnormal : (startRun s).abnormal = false := rfl
@[simp] theorem startRun_abnormalLog : (startRun s).abnormalLog = [] := rfl
@[simp] theorem startRun_fault : (startRun s).fault = .noFault := rfl
@[simp] theorem startRun_debuggerEnabled : (startRun s).debuggerEnabled = s.debuggerEnabled := rfl
@[simp] theorem startRun_debuggerSteps : (startRun s).debuggerSteps = s.debuggerSteps := rfl
@[simp] theorem startRun_breakpoints : (startRun s).breakpoints = s.breakpoints := rfl
@[simp] theorem startRun_cout : (startRun s).cout = [] := rfl
@[simp] theorem startRun_cin : (startRun s).cin = s.cin := rfl
@[simp] theorem startRun_mem : (startRun s).mem = s.mem := rfl
@[simp] theorem startRun_fetchAddr : (startRun s).fetchAddr = s.fetchAddr := rfl
@[simp] theorem startRun_phase : (startRun s).phase = .ready := rfl
@[simp] theorem startRun_eaPolicy : (startRun s).eaPolicy = s.eaPolicy := rfl

/-! Fields after the hooks. -/

@[simp] theorem postHook_regs : (postHook s).regs = s.regs := by
  unfold postHook; split <;> rfl
@[simp] theorem postHook_pc : (postHook s).pc = s.pc := by
  unfold postHook; split <;> rfl
@[simp] theorem postHook_cond : (postHook s).cond = s.cond := by
  unfold postHook; split <;> rfl
@[simp] theorem postHook_ir : (postHook s).ir = s.ir := by
  unfold postHook; split <;> rfl
@[simp] theorem postHook_running : (postHook s).running = s.running := by
  unfold postHook; split <;> rfl
@[simp] theorem postHook_abnormal : (postHook s).abnormal = s.abnormal := by
  unfold postHook; split <;> rfl
@[simp] theorem postHook_abnormalLog : (postHook s).abnormalLog = s.abnormalLog := by
  unfold postHook; split <;> rfl
@[simp] theorem postHook_fault : (postHook s).fault = s.fault := by
  unfold postHook; split <;> rfl
@[simp] theorem postHook_debuggerEnabled : (postHook s).debuggerEnabled = s.debuggerEnabled := by
  unfold postHook; split <;> rfl
@[simp] theorem postHook_breakpoints : (postHook s).breakpoints = s.breakpoints := by
  unfold postHook; split <;> rfl
@[simp] theorem postHook_cout : (postHook s).cout = s.cout := by
  unfold postHook; split <;> rfl
@[simp] theorem postHook_cin : (postHook s).cin = s.cin := by
  unfold postHook; split <;> rfl
@[simp] theorem postHook_mem : (postHook s).mem = s.mem := by
  unfold postHook; split <;> rfl
@[simp] theorem postHook_fetchAddr : (postHook s).fetchAddr = s.fetchAddr := by
  unfold postHook; split <;> rfl
@[simp] theorem postHook_phase : (postHook s).phase = s.phase := by
  unfold postHook; split <;> rfl
@[simp] theorem postHook_eaPolicy : (postHook s).eaPolicy = s.eaPolicy := by
  unfold postHook; split <;> rfl

@[simp] theorem preHook_regs : (preHook s).regs = s.regs := by
  unfold preHook; repeat (first | rfl | split)
@[simp] theorem preHook_pc : (preHook s).pc = s.pc := by
  unfold preHook; repeat (first | rfl | split)
@[simp] theorem preHook_cond : (preHook s).cond = s.cond := by
  unfold preHook; repeat (first | rfl | split)
@[simp] theorem preHook_ir : (preHook s).ir = s.ir := by
  unfold preHook; repeat (first | rfl | split)
@[simp] theorem preHook_running : (preHook s).running = s.running := by
  unfold preHook; repeat (first | rfl | split)
@[simp] theorem preHook_abnormal : (preHook s).abnormal = s.abnormal := by
  unfold preHook; repeat (first | rfl | split)
@[simp] theorem preHook_abnormalLog : (preHook s).abnormalLog = s.abnormalLog := by
  unfold preHook; repeat (first | rfl | split)
@[simp] theorem preHook_fault : (preHook s).fault = s.fault := by
  unfold preHook; repeat (first | rfl | split)
@[simp] theorem preHook_debuggerEnabled : (preHook s).debuggerEnabled = s.debuggerEnabled := by
  unfold preHook; repeat (first | rfl | split)
@[simp] theorem preHook_breakpoints : (preHook s).breakpoints = s.breakpoints := by
  unfold preHook; repeat (first | rfl | split)
@[simp] theorem preHook_cout : (preHook s).cout = s.cout := by
  unfold preHook; repeat (first | rfl | split)
@[simp] theorem preHook_cin : (preHook s).cin = s.cin := by
  unfold preHook; repeat (first | rfl | split)
@[simp] theorem preHook_mem : (preHook s).mem = s.mem := by
  unfold preHook; repeat (first | rfl | split)
@[simp] theorem preHook_fetchAddr : (preHook s).fetchAddr = s.fetchAddr := by
  unfold preHook; repeat (first | rfl | split)
@[simp] theorem preHook_eaPolicy : (preHook s).eaPolicy = s.eaPolicy := by
  unfold preHook; repeat (first | rfl | split)

/-! The endings. -/

@[simp] theorem interpret_none : interpret .none s = s := rfl
@[simp] theorem interpret_halt : interpret .halt s = raiseHalt s := rfl
@[simp] theorem interpret_abnormal (r : AbnormalReason) : interpret (.abnormal r) s = raiseAbnormal r s := rfl
@[simp] theorem interpret_memoryFault (i : Int) : interpret (.memoryFault i) s = raiseMemoryFault i s := rfl

/-- With the debugger off both hooks change nothing (R88). -/
theorem preHook_of_disabled (h : s.debuggerEnabled = false) : preHook s = s := by
  simp [preHook, h]

theorem postHook_of_disabled (h : s.debuggerEnabled = false) : postHook s = s := by
  simp [postHook, h]

end Sys2Proof.Machine
end

