-- ==== Sys2Proof/Laws/Ops.lean ====
section
/-! SUPPORT. One lemma per shared operation that says everything it can do, and what a register reads as after each
update. -/

namespace Sys2Proof.Machine

variable (s : State)

/-! Registers. -/

@[simp] theorem regRead_regWrite_self (f : RegFile) (v : Word) (r : Reg) : regRead (regWrite f v r) r = v := by
  cases r <;> rfl

theorem regRead_regWrite_ne (f : RegFile) (v : Word) {r q : Reg} (h : q ≠ r) :
    regRead (regWrite f v r) q = regRead f q := by
  cases r <;> cases q <;> first | rfl | exact absurd rfl h

@[simp] theorem getReg_setReg_self (r : Reg) (v : Word) : getReg r (setReg r v s) = v :=
  regRead_regWrite_self s.regs v r

theorem getReg_setReg_ne (v : Word) {r q : Reg} (h : q ≠ r) : getReg q (setReg r v s) = getReg q s :=
  regRead_regWrite_ne s.regs v h

@[simp] theorem getReg_writeDest_self (r : Reg) (v : Word) : getReg r (writeDest r v s) = v :=
  regRead_regWrite_self s.regs v r

theorem getReg_writeDest_ne (v : Word) {r q : Reg} (h : q ≠ r) : getReg q (writeDest r v s) = getReg q s :=
  regRead_regWrite_ne s.regs v h

@[simp] theorem getReg_linkReturn_self : getReg .r7 (linkReturn s) = s.pc := rfl

theorem getReg_linkReturn_ne {q : Reg} (h : q ≠ .r7) : getReg q (linkReturn s) = getReg q s :=
  regRead_regWrite_ne s.regs s.pc h

@[simp] theorem getReg_setPc (t : Word) (q : Reg) : getReg q (setPc t s) = getReg q s := rfl
@[simp] theorem getReg_setcc (v : Word) (q : Reg) : getReg q (setcc v s) = getReg q s := rfl
@[simp] theorem getReg_storeWord (a v : Word) (q : Reg) : getReg q (storeWord a v s) = getReg q s := rfl
@[simp] theorem getReg_consoleOut (bs : List Byte) (q : Reg) : getReg q (consoleOut bs s) = getReg q s := rfl
@[simp] theorem getReg_raiseHalt (q : Reg) : getReg q (raiseHalt s) = getReg q s := rfl
@[simp] theorem getReg_raiseAbnormal (x : AbnormalReason) (q : Reg) : getReg q (raiseAbnormal x s) = getReg q s := rfl
@[simp] theorem getReg_raiseMemoryFault (i : Int) (q : Reg) : getReg q (raiseMemoryFault i s) = getReg q s := rfl
@[simp] theorem getReg_fetch (q : Reg) : getReg q (fetch s) = getReg q s := rfl
@[simp] theorem getReg_debugEnter (m : Option Word) (q : Reg) : getReg q (debugEnter m s) = getReg q s := rfl
@[simp] theorem getReg_advancePc (q : Reg) : getReg q (advancePc s) = getReg q s := rfl
@[simp] theorem getReg_toReady (q : Reg) : getReg q (toReady s) = getReg q s := rfl
@[simp] theorem getReg_supplyInput (b : Byte) (q : Reg) : getReg q (supplyInput b s) = getReg q s := rfl
@[simp] theorem getReg_startRun (q : Reg) : getReg q (startRun s) = getReg q s := rfl

/-! Endings and outcomes. -/

/-- An ending always answers a next state. -/
@[simp] theorem complete_eq (sig : Signal) : complete sig s = .next (interpret sig s) := rfl

/-- A hold answers a next state that differs in `phase` only. -/
@[simp] theorem hold_eq (h : Hold) : hold h s = .next { s with phase := .holding h } := rfl

@[simp] theorem retire_next : retire (.next s) = .next (if s.phase = .ready then postHook s else s) := rfl

/-! The checked address. -/

/-- The test of `EA` over the integers (R36). -/
theorem isAddress_iff (i : Int) : isAddress i = true ↔ 0 ≤ i ∧ i < 65536 := by
  cases i with
  | ofNat n => simp only [isAddress, decide_eq_true_eq, Int.ofNat_eq_natCast]; omega
  | negSucc n => simp only [isAddress, Bool.false_eq_true, false_iff]; omega

/-- What `EA` can answer: an address that is the sum modulo 65536, and the exact sum where it is in range; or, under
`Fault` only, the out-of-range sum (R36). -/
theorem effectiveAddress_cases (p : EaPolicy) (b : Word) (o : Int) :
    (effectiveAddress p b o = .address (BitVec.ofInt 16 (b.toNat + o)) ∧
      ((0 ≤ (b.toNat : Int) + o ∧ (b.toNat : Int) + o < 65536) ∨ p = .wrap)) ∨
    (effectiveAddress p b o = .outOfRange (b.toNat + o) ∧ p = .fault ∧
      ¬(0 ≤ (b.toNat : Int) + o ∧ (b.toNat : Int) + o < 65536)) := by
  unfold effectiveAddress
  by_cases h : isAddress ((b.toNat : Int) + o) = true
  · exact .inl ⟨by simp [h], .inl ((isAddress_iff _).mp h)⟩
  · cases p
    · exact .inr ⟨by simp [h], rfl, fun hr => h ((isAddress_iff _).mpr hr)⟩
    · exact .inl ⟨by simp [h], .inr rfl⟩

/-- What a handler with a checked address can do: run on the address, or fault with nothing changed before (R36, R117). -/
theorem withAddress_cases (b : Word) (o : Int) (handler : Word → State) :
    (∃ ea, effectiveAddress s.eaPolicy b o = .address ea ∧ withAddress b o s handler = .next (handler ea)) ∨
    (∃ i, effectiveAddress s.eaPolicy b o = .outOfRange i ∧
      withAddress b o s handler = .next (raiseMemoryFault i s)) := by
  unfold withAddress
  cases h : effectiveAddress s.eaPolicy b o with
  | address ea => exact .inl ⟨ea, rfl, rfl⟩
  | outOfRange i => exact .inr ⟨i, rfl, rfl⟩

/-! The services. -/

/-- What the body of GETC can do (R142, R22). -/
theorem getcBody_cases :
    (s.cin = [] ∧ getcBody s = .next { s with phase := .holding .getc }) ∨
    (∃ c rest, s.cin = c :: rest ∧ getcBody s = .next (setReg .r0 (c.setWidth 16) { s with cin := rest })) := by
  unfold getcBody
  split
  · exact .inl ⟨by assumption, rfl⟩
  · exact .inr ⟨_, _, by assumption, rfl⟩

/-- What the body of IN can do (R145, R22). -/
theorem inBody_cases :
    (s.cin = [] ∧ inBody s = .next { s with phase := .holding .inp }) ∨
    (∃ c rest, s.cin = c :: rest ∧
      inBody s = .next (setReg .r0 (c.setWidth 16) (consoleOut [c] { s with cin := rest }))) := by
  unfold inBody
  split
  · exact .inl ⟨by assumption, rfl⟩
  · exact .inr ⟨_, _, by assumption, rfl⟩

/-- What a string service does after its scan: the output stands, and it completes, faults or is held (R144, R146, R218). -/
theorem finishScan_cases (h : Hold) (bs : List Byte) (e : ScanEnd) :
    (e = .terminated ∧ finishScan h (bs, e) s = .next (consoleOut bs s)) ∨
    (∃ i, e = .outOfRange i ∧ finishScan h (bs, e) s = .next (raiseMemoryFault i (consoleOut bs s))) ∨
    (e = .unfinished ∧ finishScan h (bs, e) s = .next { consoleOut bs s with phase := .holding h }) := by
  cases e with
  | terminated => exact .inl ⟨rfl, rfl⟩
  | outOfRange i => exact .inr (.inl ⟨i, rfl, rfl⟩)
  | unfinished => exact .inr (.inr ⟨rfl, rfl⟩)

/-- What the body of PUTS and PUTSP can do, said of the scan it makes (the fuel stands as a variable, so that no proof
unrolls it). -/
theorem stringBody_cases (h : Hold) (emit : Word → List Byte) :
    ∃ fuel bs e, fuel = lapReads ∧ scanString s.eaPolicy s.mem emit (getReg .r0 s) fuel 0 = (bs, e) ∧
      ((e = .terminated ∧ stringBody h emit s = .next (consoleOut bs s)) ∨
       (∃ i, e = .outOfRange i ∧ stringBody h emit s = .next (raiseMemoryFault i (consoleOut bs s))) ∨
       (e = .unfinished ∧ stringBody h emit s = .next { consoleOut bs s with phase := .holding h })) := by
  obtain ⟨n, hn⟩ : ∃ n, n = lapReads := ⟨_, rfl⟩
  refine ⟨n, _, _, hn, rfl, ?_⟩
  rw [stringBody, ← hn]
  exact finishScan_cases s h _ _

/-! The hooks. -/

/-- What the pre-hook can do (R186). -/
theorem preHook_cases :
    (preHook s = s) ∨
    (s.debuggerEnabled = true ∧ isBreakpoint s.fetchAddr s = true ∧ preHook s = debugEnter (some s.fetchAddr) s) ∨
    (s.debuggerEnabled = true ∧ isBreakpoint s.fetchAddr s = false ∧ s.debuggerSteps = 0 ∧
      preHook s = debugEnter none { s with debuggerSteps := -1 }) := by
  unfold preHook
  cases hd : s.debuggerEnabled
  · exact .inl (by simp)
  · cases hb : isBreakpoint s.fetchAddr s
    · by_cases h0 : s.debuggerSteps = 0
      · exact .inr (.inr ⟨rfl, rfl, h0, by simp [h0]⟩)
      · exact .inl (by simp [h0])
    · exact .inr (.inl ⟨rfl, rfl, by simp⟩)

/-- What the post-hook does to the step budget (R187). -/
theorem postHook_debuggerSteps :
    (postHook s).debuggerSteps =
      if s.debuggerEnabled = true ∧ 0 < s.debuggerSteps then s.debuggerSteps - 1 else s.debuggerSteps := by
  unfold postHook
  by_cases h : s.debuggerEnabled = true ∧ 0 < s.debuggerSteps
  · simp [h]
  · rw [if_neg (by simpa using h), if_neg h]

end Sys2Proof.Machine
end

