-- ==== Sys2Proof/Laws/Scan.lean ====
section
/-! SUPPORT. Everything the string scan of PUTS and PUTSP can do (44_system.md R144, R146). -/

namespace Sys2Proof.Machine

/-- The scan's checked address: the wrapped sum, or, under `Fault` only, the out-of-range sum. -/
theorem effectiveAddress_scan (p : EaPolicy) (base : Word) (k : Nat) :
    (effectiveAddress p base k = .address (scanAddress base k) ∧ (base.toNat + k < 65536 ∨ p = .wrap)) ∨
    (effectiveAddress p base k = .outOfRange (base.toNat + k) ∧ p = .fault ∧ 65536 ≤ base.toNat + k) := by
  have ha : BitVec.ofInt 16 ((base.toNat : Int) + k) = scanAddress base k := by
    rw [scanAddress, ← BitVec.ofInt_natCast]; congr 1
  rcases effectiveAddress_cases p base k with ⟨h, hr⟩ | ⟨h, hp, hr⟩
  · exact .inl ⟨by rw [h, ha], hr.imp (by omega) id⟩
  · exact .inr ⟨h, hp, by omega⟩

/-- The word the scan reads at index `k`. -/
def scanWord (m : Memory) (base : Word) (k : Nat) : Word := readWord m (scanAddress base k)

/-- What a scan can do: it outputs the bytes of `n` words, none of them zero and none out of range, and then finds a zero
word, or an address out of range, or has used up its reads. -/
theorem scanString_cases (p : EaPolicy) (m : Memory) (emit : Word → List Byte) (base : Word) (fuel k : Nat) :
    ∃ n, n ≤ fuel ∧
      (∀ j, j < n → effectiveAddress p base ((k + j : Nat) : Int) = .address (scanAddress base (k + j)) ∧
        scanWord m base (k + j) ≠ 0#16) ∧
      (scanString p m emit base fuel k).1 = (List.range n).flatMap (fun j => emit (scanWord m base (k + j))) ∧
      (((scanString p m emit base fuel k).2 = .terminated ∧ n < fuel ∧
          effectiveAddress p base ((k + n : Nat) : Int) = .address (scanAddress base (k + n)) ∧
          scanWord m base (k + n) = 0#16) ∨
        ((scanString p m emit base fuel k).2 = .outOfRange ((base.toNat : Int) + (k + n : Nat)) ∧
          p = .fault ∧ 65536 ≤ base.toNat + (k + n)) ∨
        ((scanString p m emit base fuel k).2 = .unfinished ∧ n = fuel ∧
          (base.toNat + (k + n) < 65536 ∨ p = .wrap))) := by
  induction fuel generalizing k with
  | zero =>
    refine ⟨0, Nat.le_refl 0, fun j hj => absurd hj (Nat.not_lt_zero j), ?_⟩
    rcases effectiveAddress_scan p base k with ⟨h, hr⟩ | ⟨h, hp, hr⟩
    · refine ⟨by simp [scanString, h], .inr (.inr ⟨by simp [scanString, h], rfl, by simpa using hr⟩)⟩
    · exact ⟨by simp [scanString, h], .inr (.inl ⟨by simp [scanString, h], hp, by simpa using hr⟩)⟩
  | succ fuel ih =>
    rcases effectiveAddress_scan p base k with ⟨h, hr⟩ | ⟨h, hp, hr⟩
    · by_cases hz : readWord m (scanAddress base k) = 0#16
      · refine ⟨0, Nat.zero_le _, fun j hj => absurd hj (Nat.not_lt_zero j), ?_, .inl ⟨?_, ?_, ?_, ?_⟩⟩
        · simp [scanString, h, hz]
        · simp [scanString, h, hz]
        · omega
        · simpa using h
        · simpa [scanWord] using hz
      · obtain ⟨n, hn, hj, hb, he⟩ := ih (k + 1)
        have hk : ∀ j, k + 1 + j = k + (j + 1) := fun j => by omega
        refine ⟨n + 1, by omega, ?_, ?_, ?_⟩
        · intro j hlt
          cases j with
          | zero => exact ⟨by simpa using h, by simpa [scanWord] using hz⟩
          | succ j => have := hj j (by omega); rw [hk] at this; exact this
        · rw [scanString]
          simp only [h, hz, if_false, hb, List.range_succ_eq_map, List.flatMap_cons, List.flatMap_map, hk]
          simp [scanWord]
        · rw [scanString]
          simp only [h, hz, if_false]
          rw [hk] at he
          rcases he with ⟨h1, h2, h3⟩ | ⟨h1, h2, h3⟩ | ⟨h1, h2, h3⟩
          · exact .inl ⟨h1, by omega, h3⟩
          · exact .inr (.inl ⟨h1, h2, h3⟩)
          · exact .inr (.inr ⟨h1, by omega, h3⟩)
    · refine ⟨0, Nat.zero_le _, fun j hj => absurd hj (Nat.not_lt_zero j), ?_, .inr (.inl ⟨?_, hp, by simpa using hr⟩)⟩
      · simp [scanString, h]
      · simp [scanString, h]

end Sys2Proof.Machine
end

