-- ==== Sys2Proof/Laws/Exec.lean ====
section
/-! SUPPORT. Everything an instruction can do, said once: `exec_effect` turns "`exec i s` answers `next t`" into one of the
named effects, and later proofs go by cases on it instead of unfolding the meanings. -/

namespace Sys2Proof.Machine

/-- What an instruction can do to a state. -/
inductive Effect : Instr → State → State → Prop where
  /-- One of the seven writes its result and the flags. -/
  | result {i s} (r : Reg) (v : Word) (hf : setsFlags i = true) (hw : writtenRegs i = [r]) : Effect i s (writeDest r v s)
  /-- A store writes one word. -/
  | store {i s} (a v : Word) (h : isStore i = true) : Effect i s (storeWord a v s)
  /-- A load or store faults before anything else. -/
  | fault {i s} (x : Int) (hc : canFault i = true) (hl : linksReturn i = false) (hp : s.eaPolicy = .fault)
      (hx : ¬ inMemory x) : Effect i s (raiseMemoryFault x s)
  /-- BR not taken. -/
  | stay {s n z p off} (h : branchTaken n z p s.cond = false) : Effect (.br n z p off) s s
  /-- BR taken. -/
  | branch {s n z p off} (h : branchTaken n z p s.cond = true) :
      Effect (.br n z p off) s (setPc (pcRelative s.pc off) s)
  /-- JMP. -/
  | jump {s} (base : Reg) : Effect (.jmp base) s (setPc (getReg base s) s)
  /-- JSR and JSRR. -/
  | call {i s} (a : Word) (hp : writesPc i = true) (hl : linksReturn i = true) : Effect i s (setPc a (linkReturn s))
  /-- RTI and RES. -/
  | abnormal {i s} (r : AbnormalReason) (hr : abnormalReasonOf i = some r) (hl : linksReturn i = false) :
      Effect i s (raiseAbnormal r s)
  /-- TRAP with another vector. -/
  | otherTrap {s} (v : BitVec 8) : Effect (.trapOther v) s (raiseAbnormal (.unimplementedTrap v) (linkReturn s))
  /-- HALT. -/
  | halt {s} : Effect .trapHalt s (raiseHalt (linkReturn s))
  /-- OUT. -/
  | out {s} (b : Byte) : Effect .trapOut s (consoleOut [b] (linkReturn s))
  /-- GETC held. -/
  | getcHeld {s} (h : s.cin = []) : Effect .trapGetc s { linkReturn s with phase := .holding .getc }
  /-- GETC completed. -/
  | getc {s} (c : Byte) (rest : List Byte) (h : s.cin = c :: rest) :
      Effect .trapGetc s (setReg .r0 (c.setWidth 16) { linkReturn s with cin := rest })
  /-- IN held. -/
  | inHeld {s} (h : s.cin = []) :
      Effect .trapIn s { consoleOut Config.inPrompt (linkReturn s) with phase := .holding .inp }
  /-- IN completed. -/
  | inDone {s} (c : Byte) (rest : List Byte) (h : s.cin = c :: rest) :
      Effect .trapIn s
        (setReg .r0 (c.setWidth 16) (consoleOut [c] { consoleOut Config.inPrompt (linkReturn s) with cin := rest }))
  /-- PUTS or PUTSP completed. -/
  | string {s} (h : Hold) (hh : h = .puts ∨ h = .putsp) (bs : List Byte) :
      Effect (holdInstr h) s (consoleOut bs (linkReturn s))
  /-- PUTS or PUTSP past the end of memory. -/
  | stringFault {s} (h : Hold) (hh : h = .puts ∨ h = .putsp) (bs : List Byte) (x : Int) (hp : s.eaPolicy = .fault)
      (hx : ¬ inMemory x) : Effect (holdInstr h) s (raiseMemoryFault x (consoleOut bs (linkReturn s)))
  /-- PUTS or PUTSP after a lap without a zero word. -/
  | stringHeld {s} (h : Hold) (hh : h = .puts ∨ h = .putsp) (bs : List Byte) (hp : s.eaPolicy = .wrap) :
      Effect (holdInstr h) s { consoleOut bs (linkReturn s) with phase := .holding h }

/-- What the body of a string service can do, with the reach of its scan told. -/
theorem stringBody_outcome (h : Hold) (emit : Word → List Byte) (s : State) :
    ∃ bs, stringBody h emit s = .next (consoleOut bs s) ∨
      (∃ x, s.eaPolicy = .fault ∧ ¬ inMemory x ∧ stringBody h emit s = .next (raiseMemoryFault x (consoleOut bs s))) ∨
      (s.eaPolicy = .wrap ∧ stringBody h emit s = .next { consoleOut bs s with phase := .holding h }) := by
  obtain ⟨fuel, bs, e, hfuel, hscan, hcase⟩ := stringBody_cases s h emit
  obtain ⟨n, -, -, -, hend⟩ := scanString_cases s.eaPolicy s.mem emit (getReg .r0 s) fuel 0
  rw [hscan] at hend
  refine ⟨bs, ?_⟩
  rcases hcase with ⟨-, hb⟩ | ⟨x, rfl, hb⟩ | ⟨rfl, hb⟩
  · exact .inl hb
  · refine .inr (.inl ⟨x, ?_⟩)
    rcases hend with ⟨h1, -⟩ | ⟨h1, hp, hr⟩ | ⟨h1, -⟩
    · cases h1
    · cases h1; exact ⟨hp, fun hx => by have := hx.2; omega, hb⟩
    · cases h1
  · refine .inr (.inr ⟨?_, hb⟩)
    rcases hend with ⟨h1, -⟩ | ⟨h1, -⟩ | ⟨-, h2, hr⟩
    · cases h1
    · cases h1
    · subst h2; subst hfuel; exact hr.resolve_left (by unfold lapReads; omega)

/-- The effects of the handlers with one checked address. -/
theorem withAddress_effect {i : Instr} {s t : State} {b : Word} {o : Int} {handler : Word → State}
    (hc : canFault i = true) (hl : linksReturn i = false) (hok : ∀ ea, Effect i s (handler ea))
    (h : withAddress b o s handler = .next t) : Effect i s t := by
  rcases withAddress_cases s b o handler with ⟨ea, -, hn⟩ | ⟨x, he, hn⟩
  · rw [hn] at h; cases h; exact hok ea
  · rw [hn] at h; cases h
    rcases effectiveAddress_cases s.eaPolicy b o with ⟨h1, -⟩ | ⟨h1, hp, hr⟩
    · rw [h1] at he; cases he
    · rw [h1] at he; cases he; exact .fault _ hc hl hp hr

/-- The effects of the string services. -/
theorem stringBody_effect {s t : State} {h : Hold} {emit : Word → List Byte} (hh : h = .puts ∨ h = .putsp)
    (he : stringBody h emit (linkReturn s) = .next t) : Effect (holdInstr h) s t := by
  obtain ⟨bs, hb | ⟨x, hp, hx, hb⟩ | ⟨hp, hb⟩⟩ := stringBody_outcome h emit (linkReturn s) <;>
    (rw [hb] at he; cases he)
  · exact .string h hh bs
  · exact .stringFault h hh bs x hp hx
  · exact .stringHeld h hh bs hp

/-- Everything `exec` can do. -/
theorem exec_effect {i : Instr} {s t : State} (h : exec i s = .next t) : Effect i s t := by
  cases i with
  | br n z p off =>
    cases hb : branchTaken n z p s.cond <;> simp [exec, execBr, hb] at h <;> subst h
    · exact .stay hb
    · exact .branch hb
  | addReg dr sr1 sr2 => cases h; exact .result dr _ rfl rfl
  | addImm dr sr1 imm => cases h; exact .result dr _ rfl rfl
  | andReg dr sr1 sr2 => cases h; exact .result dr _ rfl rfl
  | andImm dr sr1 imm => cases h; exact .result dr _ rfl rfl
  | not dr sr => cases h; exact .result dr _ rfl rfl
  | lea dr off => cases h; exact .result dr _ rfl rfl
  | ld dr off => exact withAddress_effect rfl rfl (fun _ => .result dr _ rfl rfl) h
  | ldi dr off => exact withAddress_effect rfl rfl (fun _ => .result dr _ rfl rfl) h
  | ldr dr base off => exact withAddress_effect rfl rfl (fun _ => .result dr _ rfl rfl) h
  | st sr off => exact withAddress_effect rfl rfl (fun _ => .store _ _ rfl) h
  | sti sr off => exact withAddress_effect rfl rfl (fun _ => .store _ _ rfl) h
  | str sr base off => exact withAddress_effect rfl rfl (fun _ => .store _ _ rfl) h
  | jmp base => cases h; exact .jump base
  | jsr off => cases h; exact .call _ rfl rfl
  | jsrr base => cases h; exact .call _ rfl rfl
  | rti => cases h; exact .abnormal _ rfl rfl
  | res => cases h; exact .abnormal _ rfl rfl
  | trapOut => cases h; exact .out _
  | trapHalt => cases h; exact .halt
  | trapOther v => cases h; exact .otherTrap v
  | trapGetc =>
    rcases getcBody_cases (linkReturn s) with ⟨hc, hn⟩ | ⟨c, rest, hc, hn⟩ <;>
      (simp only [exec, execTrapGetc] at h; rw [hn] at h; cases h)
    · exact .getcHeld hc
    · exact .getc c rest hc
  | trapIn =>
    rcases inBody_cases (consoleOut Config.inPrompt (linkReturn s)) with ⟨hc, hn⟩ | ⟨c, rest, hc, hn⟩ <;>
      (simp only [exec, execTrapIn] at h; rw [hn] at h; cases h)
    · exact .inHeld hc
    · exact .inDone c rest hc
  | trapPuts => exact stringBody_effect (h := .puts) (.inl rfl) h
  | trapPutsp => exact stringBody_effect (h := .putsp) (.inr rfl) h

end Sys2Proof.Machine
end

