-- ==== Sys2Proof/Laws/PerInstr.lean ====
section
/-! SUPPORT. Statements about every instruction as syntax, one lemma per constructor.
`EncodeMatchesRow`: the encoder's word has exactly the selecting bits of its row of 30_encoding.md R55. -/

namespace Sys2Proof.Laws.EncodeMatchesRow

open Sys2Proof

/-- The canonical word of a well-formed instruction carries its row's match value under its row's mask (R55, R62). -/
def Statement (i : Instr) : Prop := wellFormed i = true → encode i &&& rowMask i = rowMatch i

theorem br (n : Bool) (z : Bool) (p : Bool) (off : BitVec 9) : Statement (.br n z p off) := fun _ => by
  apply BitVec.eq_of_getLsbD_eq
  intro i hi
  interval_cases i <;> simp only [encode, rowMask, rowMatch, BitVec.getLsbD_append, BitVec.getLsbD_and] <;> simp

theorem addReg (dr : Reg) (sr1 : Reg) (sr2 : Reg) : Statement (.addReg dr sr1 sr2) := fun _ => formatRRR_row _ dr sr1 sr2

theorem addImm (dr : Reg) (sr1 : Reg) (imm : BitVec 5) : Statement (.addImm dr sr1 imm) := fun _ => formatRRI_row _ dr sr1 imm

theorem ld (dr : Reg) (off : BitVec 9) : Statement (.ld dr off) := fun _ => formatRP9_row _ dr off

theorem st (sr : Reg) (off : BitVec 9) : Statement (.st sr off) := fun _ => formatRP9_row _ sr off

theorem jsr (off : BitVec 11) : Statement (.jsr off) := fun _ => by
  apply BitVec.eq_of_getLsbD_eq
  intro i hi
  interval_cases i <;> simp only [encode, rowMask, rowMatch, BitVec.getLsbD_append, BitVec.getLsbD_and] <;> simp

theorem jsrr (base : Reg) : Statement (.jsrr base) := fun _ => formatJR_row _ base

theorem andReg (dr : Reg) (sr1 : Reg) (sr2 : Reg) : Statement (.andReg dr sr1 sr2) := fun _ => formatRRR_row _ dr sr1 sr2

theorem andImm (dr : Reg) (sr1 : Reg) (imm : BitVec 5) : Statement (.andImm dr sr1 imm) := fun _ => formatRRI_row _ dr sr1 imm

theorem ldr (dr : Reg) (base : Reg) (off : BitVec 6) : Statement (.ldr dr base off) := fun _ => formatRB6_row _ dr base off

theorem str (sr : Reg) (base : Reg) (off : BitVec 6) : Statement (.str sr base off) := fun _ => formatRB6_row _ sr base off

theorem rti : Statement .rti := fun _ => by decide

theorem not (dr : Reg) (sr : Reg) : Statement (.not dr sr) := fun _ => by
  cases dr <;> cases sr <;> decide

theorem ldi (dr : Reg) (off : BitVec 9) : Statement (.ldi dr off) := fun _ => formatRP9_row _ dr off

theorem sti (sr : Reg) (off : BitVec 9) : Statement (.sti sr off) := fun _ => formatRP9_row _ sr off

theorem jmp (base : Reg) : Statement (.jmp base) := fun _ => by
  cases base <;> decide

theorem res : Statement .res := fun _ => by decide

theorem lea (dr : Reg) (off : BitVec 9) : Statement (.lea dr off) := fun _ => formatRP9_row _ dr off

theorem trapGetc : Statement .trapGetc := fun _ => by decide

theorem trapOut : Statement .trapOut := fun _ => by decide

theorem trapPuts : Statement .trapPuts := fun _ => by decide

theorem trapIn : Statement .trapIn := fun _ => by decide

theorem trapPutsp : Statement .trapPutsp := fun _ => by decide

theorem trapHalt : Statement .trapHalt := fun _ => by decide

theorem trapOther (vect : BitVec 8) : Statement (.trapOther vect) := fun _ => formatTV_row vect

end Sys2Proof.Laws.EncodeMatchesRow
end

