-- ==== Sys2Proof/Laws/Step.lean ====
section
/-! SUPPORT. What a step is made of, said once: later proofs go by cases on `step_cases` instead of unfolding the engine. -/

namespace Sys2Proof.Machine

/-- What a step can be: nothing, a stop of the pre-hook, an instruction run from its fetch, an instruction run after
`DebugEnter`, or a held service carried on (R80, R81, R185 to R189). -/
theorem step_cases (s : State) :
    ((s.phase = .ready ∧ s.running = false) ∨ ∃ m, s.phase = .inDebugEnter m) ∧ step s = .next s ∨
    (s.phase = .ready ∧ s.running = true ∧ (preHook (fetch s)).phase ≠ .ready ∧ step s = .next (preHook (fetch s))) ∨
    (s.phase = .ready ∧ s.running = true ∧ (preHook (fetch s)).phase = .ready ∧
      step s = runInstruction (preHook (fetch s))) ∨
    (s.phase = .resuming ∧ step s = runInstruction (toReady s)) ∨
    (∃ h, s.phase = .holding h ∧ step s = retire (continueHeld h (toReady s))) := by
  unfold step engineStep
  cases hp : s.phase with
  | ready =>
    cases hr : s.running
    · exact .inl ⟨.inl ⟨rfl, rfl⟩, rfl⟩
    · by_cases ht : (preHook (fetch s)).phase = .ready
      · exact .inr (.inr (.inl ⟨rfl, rfl, ht, by simp [ht]⟩))
      · exact .inr (.inl ⟨rfl, rfl, ht, by simp [ht]⟩)
  | inDebugEnter m => exact .inl ⟨.inr ⟨m, rfl⟩, rfl⟩
  | resuming => exact .inr (.inr (.inr (.inl ⟨rfl, rfl⟩)))
  | holding h => exact .inr (.inr (.inr (.inr ⟨h, rfl, rfl⟩)))

/-- The post-hook and the end of a step change no field but the budget (R187). -/
theorem retire_next_eq (s : State) :
    ∃ n, retire (.next s) = .next { s with debuggerSteps := n } := by
  rw [retire_next]
  unfold postHook
  split
  · split
    · exact ⟨_, rfl⟩
    · exact ⟨s.debuggerSteps, rfl⟩
  · exact ⟨s.debuggerSteps, rfl⟩

end Sys2Proof.Machine
end

