-- ==== Sys2Proof/Tests/Slice0.lean ====
section
/-! SUPPORT. Tests. Expected results are the spec's own: the rows of 95_test_vectors.md (their names V-… and G… stand in
the docstrings), the worked examples of the rules, or a word written out from 30_encoding.md by hand. The second half
holds, for every obligation with hypotheses, concrete states and operands that meet them. -/

namespace Sys2Proof.Tests

open Sys2Proof Sys2Proof.Machine

/-! Helpers. -/

/-- The machine of the vectors' conventions: reset, run started, debugger off, the word `w` at 0x3000. -/
def start (w : Nat) : State := State.reset.withFetchWord 16 w

/-- The same with the word at another address. -/
def startAt (a : Word) (w : Nat) : State := State.withFetchWord { startRun State.reset with pc := a } 16 w

/-- Set a register. -/
def reg (r : Reg) (v : Word) (s : State) : State := setReg r v s

/-- Set a memory word. -/
def word (a v : Word) (s : State) : State := storeWord a v s

/-- Set `cond`. -/
def flags (c : BitVec 3) (s : State) : State := { s with cond := c }

/-- The other policy. -/
def wrapped (s : State) : State := { s with eaPolicy := .wrap }

/-- Set the input stream. -/
def input (bs : List Byte) (s : State) : State := { s with cin := bs }

/-- The next state, where there is one. -/
def after (s : State) : Option State :=
  match step s with
  | .next t => some t
  | .fault _ => none
  | .refused _ => none

/-- One register, `cond` and `pc` after a step, where no status changed. -/
def result (r : Reg) (s : State) : Option (Word × BitVec 3 × Word) :=
  match after s with
  | some t => if t.running ∧ t.fault = .noFault ∧ t.abnormal = false then some (getReg r t, t.cond, t.pc) else none
  | none => none

/-- `fault`, `running`, `pc` and one register after a step. -/
def faulted (r : Reg) (s : State) : Option (FaultLatch × Bool × Word × Word) :=
  (after s).map fun t => (t.fault, t.running, t.pc, getReg r t)

/-- One memory word, `cond` and `pc` after a step. -/
def stored (a : Word) (s : State) : Option (Word × BitVec 3 × Word) :=
  (after s).map fun t => (readWord t.mem a, t.cond, t.pc)

/-! WellFormed: the one check refuses each ill-formed term (30_encoding.md R55, last row). -/

theorem test_wellFormed_refuses_service_vectors :
    wellFormed (.trapOther 0x20#8) = false ∧ wellFormed (.trapOther 0x21#8) = false ∧
    wellFormed (.trapOther 0x22#8) = false ∧ wellFormed (.trapOther 0x23#8) = false ∧
    wellFormed (.trapOther 0x24#8) = false ∧ wellFormed (.trapOther 0x25#8) = false := by decide

theorem test_wellFormed_accepts_neighbours :
    wellFormed (.trapOther 0x1F#8) = true ∧ wellFormed (.trapOther 0x26#8) = true := by decide

/-! Decode: one word a constructor, its bits written out from the row of 30_encoding.md R52 and R55. -/

theorem test_decode_br : decode 0b0000_101_000001111#16 = .br true false true 15#9 := by decide
theorem test_decode_addReg : decode 0b0001_010_011_000_100#16 = .addReg .r2 .r3 .r4 := by decide
theorem test_decode_addReg_ignored : decode 0b0001_010_011_011_100#16 = .addReg .r2 .r3 .r4 := by decide
theorem test_decode_addImm : decode 0b0001_010_011_1_10001#16 = .addImm .r2 .r3 0b10001#5 := by decide
theorem test_decode_ld : decode 0b0010_110_100000001#16 = .ld .r6 0b100000001#9 := by decide
theorem test_decode_st : decode 0b0011_001_011111110#16 = .st .r1 0b011111110#9 := by decide
theorem test_decode_jsr : decode 0b0100_1_10000000001#16 = .jsr 0b10000000001#11 := by decide
theorem test_decode_jsrr : decode 0b0100_0_00_101_000000#16 = .jsrr .r5 := by decide
theorem test_decode_jsrr_ignored : decode 0b0100_0_11_101_111111#16 = .jsrr .r5 := by decide
theorem test_decode_andReg : decode 0b0101_111_000_000_110#16 = .andReg .r7 .r0 .r6 := by decide
theorem test_decode_andImm : decode 0b0101_100_101_1_01111#16 = .andImm .r4 .r5 15#5 := by decide
theorem test_decode_ldr : decode 0b0110_011_001_100000#16 = .ldr .r3 .r1 0b100000#6 := by decide
theorem test_decode_str : decode 0b0111_001_011_011111#16 = .str .r1 .r3 0b011111#6 := by decide
theorem test_decode_rti : decode 0b1000_000000000000#16 = .rti ∧ decode 0b1000_111111111111#16 = .rti := by decide
theorem test_decode_not : decode 0b1001_001_110_111111#16 = .not .r1 .r6 := by decide
theorem test_decode_not_ignored : decode 0b1001_001_110_000000#16 = .not .r1 .r6 := by decide
theorem test_decode_ldi : decode 0b1010_011_000000010#16 = .ldi .r3 2#9 := by decide
theorem test_decode_sti : decode 0b1011_100_111111111#16 = .sti .r4 0b111111111#9 := by decide
theorem test_decode_jmp : decode 0b1100_000_111_000000#16 = .jmp .r7 ∧ decode 0xCEFF#16 = .jmp .r3 := by decide
theorem test_decode_res : decode 0b1101_000000000000#16 = .res ∧ decode 0xDFFF#16 = .res := by decide
theorem test_decode_lea : decode 0b1110_101_100000000#16 = .lea .r5 0b100000000#9 := by decide
theorem test_decode_services :
    decode 0b1111_0000_00100000#16 = .trapGetc ∧ decode 0b1111_0000_00100001#16 = .trapOut ∧
    decode 0b1111_0000_00100010#16 = .trapPuts ∧ decode 0b1111_0000_00100011#16 = .trapIn ∧
    decode 0b1111_0000_00100100#16 = .trapPutsp ∧ decode 0b1111_0000_00100101#16 = .trapHalt := by decide
theorem test_decode_trap_other :
    decode 0xF01F#16 = .trapOther 0x1F#8 ∧ decode 0xF026#16 = .trapOther 0x26#8 ∧ decode 0xFA25#16 = .trapHalt := by
  decide

/-- The decoder of bytes reads the high byte first, leaves the rest, and rejects a lone byte by name (R44). -/
theorem test_decodeBytes :
    decodeBytes [0x10#8, 0x25#8, 0xF0#8] = .decoded (.addImm .r0 .r0 5#5) [0xF0#8] ∧
    decodeBytes [0x10#8] = .rejected (.truncated 1) ∧ decodeBytes [] = .rejected (.truncated 0) := by decide

theorem test_decodeTableWord : decodeTableWord 16 0xC1C0 = some (.jmp .r7) ∧ decodeTableWord 8 0xC1 = none := by decide

/-- The canonical words of the rules' worked examples (30_encoding.md R62). -/
theorem test_encode :
    encode (.addImm .r0 .r0 5#5) = 0x1025#16 ∧ encode (.not .r1 .r0) = 0x923F#16 ∧ encode (.jmp .r7) = 0xC1C0#16 ∧
    encode (.br false true false 0b111111110#9) = 0x05FE#16 ∧ encode .trapHalt = 0xF025#16 := by decide

/-- The prompt is the text of R5, character by character. -/
theorem test_inPrompt :
    Config.inPrompt = "Enter a character: ".toList.map fun c => BitVec.ofNat 8 c.toNat := by decide

/-! Helpers of the rules: the values of S9 and S10. -/

theorem test_setcc :
    ccOf 0x0000#16 = 0b010#3 ∧ ccOf 0x0001#16 = 0b001#3 ∧ ccOf 0x7FFF#16 = 0b001#3 ∧ ccOf 0x8000#16 = 0b100#3 ∧
    ccOf 0xFFFF#16 = 0b100#3 := by decide

theorem test_sext16 :
    sext16 0b01111#5 = 0x000F#16 ∧ sext16 0b10000#5 = 0xFFF0#16 ∧ sext16 0b100000#6 = 0xFFE0#16 ∧
    sext16 0x100#9 = 0xFF00#16 ∧ sext16 0x400#11 = 0xFC00#16 ∧ sext16 0x3FF#11 = 0x03FF#16 := by decide

/-! One step an instruction. -/

/-- V-ALU-3. -/
theorem test_add_wraps :
    result .r2 (reg .r0 0xFFFF#16 (reg .r1 1#16 (start 0x1401))) = some (0x0000#16, 0b010#3, 0x3001#16) := by decide
/-- V-ALU-8. -/
theorem test_add_ignored_bits :
    result .r2 (reg .r0 2#16 (reg .r1 3#16 (start 0x1419))) = some (5#16, 0b001#3, 0x3001#16) := by decide
/-- V-ALU-5. -/
theorem test_addImm_minus_one : result .r1 (start 0x127F) = some (0xFFFF#16, 0b100#3, 0x3001#16) := by decide
/-- V-ALU-7. -/
theorem test_addImm_most : result .r1 (reg .r1 0xFFF1#16 (start 0x126F)) = some (0#16, 0b010#3, 0x3001#16) := by decide
/-- V-ALU-9. -/
theorem test_and :
    result .r2 (reg .r0 0xF0F0#16 (reg .r1 0xFF00#16 (start 0x5401))) = some (0xF000#16, 0b100#3, 0x3001#16) := by decide
/-- V-ALU-11. -/
theorem test_andImm_sign_extends :
    result .r4 (reg .r5 0x8001#16 (start 0x597F)) = some (0x8001#16, 0b100#3, 0x3001#16) := by decide
/-- V-ALU-16. -/
theorem test_not : result .r1 (reg .r0 0x00FF#16 (start 0x9200)) = some (0xFF00#16, 0b100#3, 0x3001#16) := by decide
/-- V-LS-2. -/
theorem test_ld_itself : result .r2 (start 0x25FF) = some (0x25FF#16, 0b001#3, 0x3001#16) := by decide
/-- V-LS-4. -/
theorem test_ld_faults :
    faulted .r1 (startAt 0xFFF0#16 0x22FF) = some (.memoryFault 65776, false, 0xFFF1#16, 0#16) := by decide
/-- V-LS-7. -/
theorem test_ld_wraps :
    result .r1 (wrapped (word 0xFFFF#16 0x2222#16 (startAt 0#16 0x23FE))) = some (0x2222#16, 0b001#3, 1#16) := by decide
/-- V-LS-9. -/
theorem test_ldi_top_pointer :
    result .r3 (word 0x3003#16 0xFFFF#16 (word 0xFFFF#16 0x8000#16 (start 0xA602))) =
      some (0x8000#16, 0b100#3, 0x3001#16) := by decide
/-- V-LS-11. -/
theorem test_ldr_faults :
    faulted .r4 (reg .r4 0x9999#16 (start 0x69BF)) = some (.memoryFault (-1), false, 0x3001#16, 0x9999#16) := by decide
/-- V-LS-14. -/
theorem test_ldr_wraps :
    result .r4 (wrapped (reg .r6 0xFFFF#16 (word 0x001E#16 0x42#16 (start 0x699F)))) =
      some (0x42#16, 0b001#3, 0x3001#16) := by decide
/-- V-LS-16. -/
theorem test_lea_wraps : result .r0 (startAt 0xFFFF#16 0xE1FF) = some (0xFFFF#16, 0b100#3, 0#16) := by decide
/-- V-LS-20. -/
theorem test_st_over_itself :
    stored 0x3000#16 (reg .r2 0x1234#16 (start 0x35FF)) = some (0x1234#16, 0#3, 0x3001#16) ∧
    (after (reg .r2 0x1234#16 (start 0x35FF))).map (·.ir) = some 0x35FF#16 := by decide
/-- V-LS-22. -/
theorem test_st_faults :
    faulted .r1 (reg .r1 0x7777#16 (startAt 0xFFF0#16 0x32FF)) =
      some (.memoryFault 65776, false, 0xFFF1#16, 0x7777#16) := by decide
/-- V-LS-23. -/
theorem test_sti :
    stored 0x5000#16 (reg .r3 0xAA#16 (word 0x3003#16 0x5000#16 (start 0xB602))) =
      some (0xAA#16, 0#3, 0x3001#16) := by decide
/-- V-LS-26. -/
theorem test_str_wraps :
    stored 0xFFF0#16 (wrapped (reg .r4 1#16 (reg .r6 0x10#16 (start 0x79A0)))) = some (1#16, 0#3, 0x3001#16) := by decide
/-- V-LS-27. -/
theorem test_str_own_base :
    stored 0x4000#16 (reg .r6 0x4000#16 (start 0x7D80)) = some (0x4000#16, 0#3, 0x3001#16) := by decide
/-- V-BR-1 and V-BR-2. -/
theorem test_brz :
    result .r0 (flags 0b010#3 (start 0x05FE)) = some (0#16, 0b010#3, 0x2FFF#16) ∧
    result .r0 (flags 0b001#3 (start 0x05FE)) = some (0#16, 0b001#3, 0x3001#16) := by decide
/-- V-BR-9 and V-BR-13. -/
theorem test_brnzp :
    result .r0 (start 0x0E03) = some (0#16, 0#3, 0x3001#16) ∧
    result .r0 (flags 0b001#3 (startAt 0xFFF0#16 0x0EFF)) = some (0#16, 0b001#3, 0x00F0#16) := by decide
/-- V-JMP-3. -/
theorem test_jmp : result .r7 (reg .r3 0x1234#16 (start 0xCEFF)) = some (0#16, 0#3, 0x1234#16) := by decide
/-- V-JSR-1. -/
theorem test_jsr :
    result .r7 (flags 0b010#3 (reg .r7 0xAAAA#16 (start 0x4804))) = some (0x3001#16, 0b010#3, 0x3005#16) := by decide
/-- V-JSR-3. -/
theorem test_jsr_wraps : result .r7 (startAt 0xFFF0#16 0x4BFF) = some (0xFFF1#16, 0#3, 0x03F0#16) := by decide
/-- V-JSR-5 and V-JSR-6. -/
theorem test_jsrr :
    result .r7 (reg .r2 0x5000#16 (start 0x4080)) = some (0x3001#16, 0#3, 0x5000#16) ∧
    result .r7 (reg .r7 0x5000#16 (start 0x41C0)) = some (0x3001#16, 0#3, 0x3001#16) := by decide
/-- V-SYS-1. -/
theorem test_getc :
    (after (input [0x41#8] (flags 0b100#3 (reg .r0 0xFFFF#16 (start 0xF020))))).map
        (fun t => (getReg .r0 t, getReg .r7 t, t.cond, t.cin, t.cout)) =
      some (0x41#16, 0x3001#16, 0b100#3, [], []) := by decide
/-- V-SYS-3. -/
theorem test_getc_holds :
    (after (start 0xF020)).map (fun t => (t.phase, getReg .r7 t, t.pc, t.running)) =
      some (.holding .getc, 0x3001#16, 0x3001#16, true) := by decide
/-- V-SYS-4. -/
theorem test_out :
    (after (reg .r0 0x1241#16 (start 0xF021))).map (fun t => (t.cout, getReg .r7 t)) = some ([0x41#8], 0x3001#16) := by
  decide
/-- V-SYS-6. -/
theorem test_puts :
    (after (reg .r0 0x4000#16 (word 0x4000#16 0x48#16 (word 0x4001#16 0x169#16 (start 0xF022))))).map
        (fun t => (t.cout, getReg .r0 t, t.phase)) = some ([0x48#8, 0x69#8], 0x4000#16, .ready) := by decide
/-- V-SYS-8. -/
theorem test_puts_faults :
    (after (reg .r0 0xFFFF#16 (word 0xFFFF#16 0x41#16 (start 0xF022)))).map
        (fun t => (t.cout, t.fault, t.running, getReg .r7 t)) =
      some ([0x41#8], .memoryFault 65536, false, 0x3001#16) := by decide
/-- V-SYS-10. -/
theorem test_in :
    (after (input [0x7A#8] (reg .r0 0xFFFF#16 (start 0xF023)))).map (fun t => (t.cout, getReg .r0 t, t.cin)) =
      some (Config.inPrompt ++ [0x7A#8], 0x7A#16, []) := by decide
/-- V-SYS-11. -/
theorem test_putsp :
    (after (reg .r0 0x4000#16 (word 0x4000#16 0x6548#16 (word 0x4001#16 0x6C#16 (start 0xF024))))).map (·.cout) =
      some [0x48#8, 0x65#8, 0x6C#8] := by decide
/-- V-SYS-11b. -/
theorem test_putsp_zero_low_byte :
    (after (reg .r0 0x4000#16 (word 0x4000#16 0x4100#16 (start 0xF024)))).map (·.cout) = some [0x00#8, 0x41#8] := by
  decide
/-- V-SYS-12. -/
theorem test_halt :
    (after (flags 0b001#3 (reg .r7 0x1111#16 (start 0xF025)))).map
        (fun t => (t.running, getReg .r7 t, t.pc, t.cond, t.cout)) =
      some (false, 0x3001#16, 0x3001#16, 0b001#3, []) := by decide
/-- V-PC-2: at the top of memory. -/
theorem test_halt_at_top :
    (after (startAt 0xFFFF#16 0xF025)).map (fun t => (t.running, getReg .r7 t, t.pc)) = some (false, 0#16, 0#16) := by
  decide
/-- V-SYS-16. -/
theorem test_trap_other :
    (after (start 0xF026)).map (fun t => (t.abnormal, t.abnormalLog, t.running, getReg .r7 t)) =
      some (true, [(0x3000#16, .unimplementedTrap 0x26#8)], true, 0x3001#16) := by decide
/-- V-SYS-18. -/
theorem test_rti :
    (after (flags 0b100#3 (reg .r7 0x2222#16 (start 0x8000)))).map
        (fun t => (t.abnormalLog, getReg .r7 t, t.cond, t.running, t.pc)) =
      some ([(0x3000#16, .privilegedRti)], 0x2222#16, 0b100#3, true, 0x3001#16) := by decide
/-- V-SYS-21. -/
theorem test_res :
    (after (start 0xDABC)).map (fun t => (t.abnormal, t.abnormalLog, t.running)) =
      some (true, [(0x3000#16, .reservedOpcode)], true) := by decide

/-! The loader: V-LD-1, V-LD-4, V-LD-6, V-LD-7, V-LD-9. -/

/-- The words at two addresses after a load. -/
def loadedWords (bytes : List Byte) (a b : Word) : Option (Word × Word) :=
  match loadImage (some bytes) State.reset with
  | .loaded t => some (readWord t.mem a, readWord t.mem b)
  | .failed _ => none

theorem test_load :
    loadedWords [0x30#8, 0x00#8, 0x10#8, 0x25#8, 0xF0#8, 0x25#8] 0x3000#16 0x3001#16 = some (0x1025#16, 0xF025#16) := by
  decide
theorem test_load_to_the_top :
    loadedWords [0xFF#8, 0xFE#8, 0x00#8, 0x01#8, 0x00#8, 0x02#8] 0xFFFE#16 0xFFFF#16 = some (1#16, 2#16) := by decide
theorem test_load_errors :
    loadImage (some [0xFF#8, 0xFE#8, 0#8, 1#8, 0#8, 2#8, 0#8, 3#8]) State.reset = .failed .outOfBounds ∧
    loadImage (some [0x30#8, 0x00#8, 0x10#8]) State.reset = .failed .oddLength ∧
    loadImage (some []) State.reset = .failed .unreadable := by decide

/-! The debugger: G1 to G5. -/

/-- `s` with the debugger on, a budget and one breakpoint. -/
def debugged (steps : Int) (bp : List Word) (s : State) : State :=
  { s with debuggerEnabled := true, debuggerSteps := steps, breakpoints := bp }

/-- Stopped by a breakpoint at the word `w`, and resumed by a host that sets a budget of 2. -/
def resumed (w : Nat) : State :=
  let t := debugEnter (some 0x3000#16) (fetch (debugged (-1) [0x3000#16] (start w)))
  debugReturn { t with debuggerSteps := 2 } t

/-- R22, R187: a GETC held in a resumed step keeps the budget; given its byte it completes and takes one off. -/
theorem test_held_after_resume :
    (after (resumed 0xF020)).map (fun t => (t.phase, t.debuggerSteps)) = some (.holding .getc, 2) ∧
    ((after (resumed 0xF020)).bind fun t => after (supplyInput 0x41#8 t)).map
        (fun t => (t.phase, t.debuggerSteps, getReg .r0 t)) = some (.ready, 1, 0x41#16) := by decide

/-- G1: the stop before the instruction: pc not advanced, the word fetched, nothing executed. -/
theorem test_breakpoint_stops :
    (after (debugged (-1) [0x3000#16] (start 0x1025))).map (fun t => (t.phase, t.pc, t.ir, getReg .r0 t, t.running)) =
      some (.inDebugEnter (some 0x3000#16), 0x3000#16, 0x1025#16, 0#16, true) := by decide

/-- G2: the budget at 0 stops with no message and is reset to -1 first. -/
theorem test_budget_stops :
    (after (debugged 0 [] (start 0x1025))).map (fun t => (t.phase, t.debuggerSteps)) =
      some (.inDebugEnter none, -1) := by decide

/-- G3: `running` cleared during the call: the instruction at the breakpoint is still executed. -/
theorem test_quit_finishes_the_step :
    ((after (debugged (-1) [0x3000#16] (start 0x1025))).bind fun t =>
        after (debugReturn { t with running := false } t)).map (fun t => (getReg .r0 t, t.pc, t.running, t.phase)) =
      some (5#16, 0x3001#16, false, .ready) := by decide

/-- G2 and G4: the post-hook takes one off a positive budget and leaves 0. -/
theorem test_budget_counts :
    (after (debugged 2 [] (start 0x1025))).map (·.debuggerSteps) = some 1 ∧
    ((after (debugged (-1) [0x3000#16] (start 0x1025))).bind fun t =>
        after (debugReturn { t with debuggerSteps := 0 } t)).map (·.debuggerSteps) = some 0 := by decide

/-- G5: the debugger off: no call, whatever the breakpoint and the budget are. -/
theorem test_debugger_off :
    (after { debugged 0 [0x3000#16] (start 0x1025) with debuggerEnabled := false }).map
        (fun t => (t.phase, t.debuggerSteps)) = some (.ready, 0) := by decide

theorem test_setBreakpoint :
    setBreakpoint 5#16 true [2#16, 9#16] = [2#16, 5#16, 9#16] ∧ setBreakpoint 9#16 false [2#16, 9#16] = [2#16] := by decide

/-- A reset machine does nothing, and the run start takes it to 0x3000 (R80, R210). -/
theorem test_reset_is_stopped :
    step State.reset = .next State.reset ∧ (startRun State.reset).pc = 0x3000#16 ∧
    engineCondition State.reset = .stopped ∧ engineCondition (startRun State.reset) = .running := by
  exact ⟨rfl, rfl, rfl, rfl⟩

/-! Witnesses. For every obligation with hypotheses: words, states and operands that meet them, at the ends of the ranges
where a clause has a range. -/

/-! The words of the decoding clauses: the lowest and the highest word of each class. -/

theorem test_witness_AddRegisterForm_words :
    (0x1000#16).extractLsb' 12 4 = 1#4 ∧ (0x1000#16).getLsbD 5 = false ∧
    (0x1FDF#16).extractLsb' 12 4 = 1#4 ∧ (0x1FDF#16).getLsbD 5 = false := by decide

theorem test_witness_AddImmediateForm_words :
    (0x1020#16).extractLsb' 12 4 = 1#4 ∧ (0x1020#16).getLsbD 5 = true ∧
    (0x1FFF#16).extractLsb' 12 4 = 1#4 ∧ (0x1FFF#16).getLsbD 5 = true := by decide

theorem test_witness_AndRegisterForm_words :
    (0x5000#16).extractLsb' 12 4 = 5#4 ∧ (0x5000#16).getLsbD 5 = false ∧
    (0x5FDF#16).extractLsb' 12 4 = 5#4 ∧ (0x5FDF#16).getLsbD 5 = false := by decide

theorem test_witness_AndImmediateForm_words :
    (0x5020#16).extractLsb' 12 4 = 5#4 ∧ (0x5020#16).getLsbD 5 = true ∧
    (0x5FFF#16).extractLsb' 12 4 = 5#4 ∧ (0x5FFF#16).getLsbD 5 = true := by decide

theorem test_witness_NotComplements_words :
    (0x9000#16).extractLsb' 12 4 = 9#4 ∧
    (0x9FFF#16).extractLsb' 12 4 = 9#4 := by decide

theorem test_witness_LdLoadsPcRelative_words :
    (0x2000#16).extractLsb' 12 4 = 2#4 ∧
    (0x2FFF#16).extractLsb' 12 4 = 2#4 := by decide

theorem test_witness_LdiLoadsThroughPointer_words :
    (0xA000#16).extractLsb' 12 4 = 10#4 ∧
    (0xAFFF#16).extractLsb' 12 4 = 10#4 := by decide

theorem test_witness_LdrLoadsBasePlusOffset_words :
    (0x6000#16).extractLsb' 12 4 = 6#4 ∧
    (0x6FFF#16).extractLsb' 12 4 = 6#4 := by decide

theorem test_witness_LeaComputesAddress_words :
    (0xE000#16).extractLsb' 12 4 = 14#4 ∧
    (0xEFFF#16).extractLsb' 12 4 = 14#4 := by decide

theorem test_witness_StStoresPcRelative_words :
    (0x3000#16).extractLsb' 12 4 = 3#4 ∧
    (0x3FFF#16).extractLsb' 12 4 = 3#4 := by decide

theorem test_witness_StiStoresThroughPointer_words :
    (0xB000#16).extractLsb' 12 4 = 11#4 ∧
    (0xBFFF#16).extractLsb' 12 4 = 11#4 := by decide

theorem test_witness_StrStoresBasePlusOffset_words :
    (0x7000#16).extractLsb' 12 4 = 7#4 ∧
    (0x7FFF#16).extractLsb' 12 4 = 7#4 := by decide

theorem test_witness_BrBranchesOnRequestedFlags_words :
    (0x0000#16).extractLsb' 12 4 = 0#4 ∧
    (0x0FFF#16).extractLsb' 12 4 = 0#4 := by decide

theorem test_witness_JmpJumpsToBase_words :
    (0xC000#16).extractLsb' 12 4 = 12#4 ∧
    (0xCFFF#16).extractLsb' 12 4 = 12#4 := by decide

theorem test_witness_RtiIsAbnormal_words :
    (0x8000#16).extractLsb' 12 4 = 8#4 ∧
    (0x8FFF#16).extractLsb' 12 4 = 8#4 := by decide

theorem test_witness_ResIsAbnormal_words :
    (0xD000#16).extractLsb' 12 4 = 13#4 ∧
    (0xDFFF#16).extractLsb' 12 4 = 13#4 := by decide

theorem test_witness_JsrLinksAndJumps_words :
    (0x4800#16).extractLsb' 12 4 = 4#4 ∧ (0x4800#16).getLsbD 11 = true ∧
    (0x4FFF#16).extractLsb' 12 4 = 4#4 ∧ (0x4FFF#16).getLsbD 11 = true := by decide

theorem test_witness_JsrrLinksThenReadsBase_words :
    (0x4000#16).extractLsb' 12 4 = 4#4 ∧ (0x4000#16).getLsbD 11 = false ∧
    (0x47FF#16).extractLsb' 12 4 = 4#4 ∧ (0x47FF#16).getLsbD 11 = false := by decide

theorem test_witness_GetcReadsOneByte_words :
    (0xF020#16).extractLsb' 12 4 = 15#4 ∧ (0xF020#16).extractLsb' 0 8 = 0x20#8 ∧
    (0xFF20#16).extractLsb' 12 4 = 15#4 ∧ (0xFF20#16).extractLsb' 0 8 = 0x20#8 := by decide

theorem test_witness_OutWritesLowByte_words :
    (0xF021#16).extractLsb' 12 4 = 15#4 ∧ (0xF021#16).extractLsb' 0 8 = 0x21#8 ∧
    (0xFF21#16).extractLsb' 12 4 = 15#4 ∧ (0xFF21#16).extractLsb' 0 8 = 0x21#8 := by decide

theorem test_witness_PutsWritesString_words :
    (0xF022#16).extractLsb' 12 4 = 15#4 ∧ (0xF022#16).extractLsb' 0 8 = 0x22#8 ∧
    (0xFF22#16).extractLsb' 12 4 = 15#4 ∧ (0xFF22#16).extractLsb' 0 8 = 0x22#8 := by decide

theorem test_witness_InPromptsReadsAndEchoes_words :
    (0xF023#16).extractLsb' 12 4 = 15#4 ∧ (0xF023#16).extractLsb' 0 8 = 0x23#8 ∧
    (0xFF23#16).extractLsb' 12 4 = 15#4 ∧ (0xFF23#16).extractLsb' 0 8 = 0x23#8 := by decide

theorem test_witness_PutspWritesPackedString_words :
    (0xF024#16).extractLsb' 12 4 = 15#4 ∧ (0xF024#16).extractLsb' 0 8 = 0x24#8 ∧
    (0xFF24#16).extractLsb' 12 4 = 15#4 ∧ (0xFF24#16).extractLsb' 0 8 = 0x24#8 := by decide

theorem test_witness_HaltClearsRunning_words :
    (0xF025#16).extractLsb' 12 4 = 15#4 ∧ (0xF025#16).extractLsb' 0 8 = 0x25#8 ∧
    (0xFF25#16).extractLsb' 12 4 = 15#4 ∧ (0xFF25#16).extractLsb' 0 8 = 0x25#8 := by decide

theorem test_witness_OtherTrapVectorsAreAbnormal_words :
    (0xF000#16).extractLsb' 12 4 = 15#4 ∧ (0xF000#16).toNat % 256 < 0x20 ∧
    (0xF01F#16).extractLsb' 12 4 = 15#4 ∧ (0xF01F#16).toNat % 256 < 0x20 ∧
    (0xF026#16).extractLsb' 12 4 = 15#4 ∧ 0x25 < (0xF026#16).toNat % 256 ∧
    (0xFFFF#16).extractLsb' 12 4 = 15#4 ∧ 0x25 < (0xFFFF#16).toNat % 256 := by decide

/-! Effective addresses: each outcome at both ends of its range. The same states serve LD, LDI, ST and STI (through `pc`) and
LDR and STR (through R6). -/

theorem test_witness_pcRelative_addresses :
    effectiveAddress (startAt 0#16 0).eaPolicy 1#16 (sextInt 0x1FF#9) = .address 0x0000#16 ∧
    effectiveAddress (startAt 0#16 0).eaPolicy 0xFFFE#16 (sextInt 1#9) = .address 0xFFFF#16 ∧
    effectiveAddress (startAt 0#16 0).eaPolicy 0#16 (sextInt 0x1FF#9) = .outOfRange (-1) ∧
    effectiveAddress (startAt 0#16 0).eaPolicy 0#16 (sextInt 0x100#9) = .outOfRange (-256) ∧
    effectiveAddress (startAt 0#16 0).eaPolicy 0xFFFF#16 (sextInt 1#9) = .outOfRange 65536 ∧
    effectiveAddress (startAt 0#16 0).eaPolicy 0xFFFF#16 (sextInt 0x0FF#9) = .outOfRange 65790 := by decide

theorem test_witness_pcRelative_states :
    (let s : State := { State.reset with pc := 0xFFFE#16 }
     effectiveAddress s.eaPolicy s.pc (sextInt 1#9) = .address 0xFFFF#16) ∧
    (let s : State := { State.reset with pc := 0xFFFF#16 }
     effectiveAddress s.eaPolicy s.pc (sextInt 1#9) = .outOfRange 65536) ∧
    (let s : State := { wrapped State.reset with pc := 0xFFFF#16 }
     effectiveAddress s.eaPolicy s.pc (sextInt 1#9) = .address 0x0000#16) := by decide

theorem test_witness_baseOffset_states :
    (let s := reg .r6 0x20#16 State.reset
     effectiveAddress s.eaPolicy (getReg .r6 s) (sextInt 0x20#6) = .address 0x0000#16) ∧
    (let s := reg .r6 0xFFE0#16 State.reset
     effectiveAddress s.eaPolicy (getReg .r6 s) (sextInt 0x1F#6) = .address 0xFFFF#16) ∧
    (let s := reg .r6 0x1F#16 State.reset
     effectiveAddress s.eaPolicy (getReg .r6 s) (sextInt 0x20#6) = .outOfRange (-1)) ∧
    (let s := reg .r6 0xFFE1#16 State.reset
     effectiveAddress s.eaPolicy (getReg .r6 s) (sextInt 0x1F#6) = .outOfRange 65536) := by decide

theorem test_witness_EffectiveAddressChecksTheSum :
    inMemory ((0#16 : Word).toNat + 0) ∧ inMemory ((0xFFFE#16 : Word).toNat + 1) ∧
    ¬ inMemory ((0#16 : Word).toNat + (-1)) ∧ ¬ inMemory ((0xFFFF#16 : Word).toNat + 1) := by decide

theorem test_witness_SignExtensionOfFields :
    (0 < 1 ∧ 1 < 16 ∧ (0#1).getLsbD (1 - 1) = false) ∧ (0 < 15 ∧ 15 < 16 ∧ (0x4000#15).getLsbD (15 - 1) = true) ∧
    (0 < 5 ∧ 5 < 16 ∧ (0x0F#5).getLsbD (5 - 1) = false ∧ (0x10#5).getLsbD (5 - 1) = true) := by decide

theorem test_witness_StoreIsSeenByTheNextFetch :
    let s := reg .r2 0xF025#16 (reg .r6 0x4000#16 (word 0x3001#16 0x5000#16 { start 0 with pc := 0x3001#16 }))
    memWf s.mem = true ∧
    (effectiveAddress s.eaPolicy s.pc (sextInt 0#9) = .address 0x3001#16 ∧ ∃ t, exec (.st .r2 0#9) s = .next t) ∧
    (effectiveAddress s.eaPolicy s.pc (sextInt 0#9) = .address 0x3001#16 ∧ ∃ t, exec (.sti .r2 0#9) s = .next t) ∧
    (effectiveAddress s.eaPolicy (getReg .r6 s) (sextInt 0x20#6) = .address 0x3FE0#16 ∧
      ∃ t, exec (.str .r2 .r6 0x20#6) s = .next t) :=
  ⟨rfl, ⟨rfl, _, rfl⟩, ⟨rfl, _, rfl⟩, ⟨rfl, _, rfl⟩⟩

/-- A state in each of the three conditions; the request bits are operands, free to be set or clear in it. -/
theorem test_witness_BrBranchesOnRequestedFlags_states :
    (flags 0b100#3 State.reset).cond = Config.flN ∧ (flags 0b010#3 State.reset).cond = Config.flZ ∧
    (flags 0b001#3 State.reset).cond = Config.flP := by decide

/-! The console services. -/

theorem test_witness_GetcReadsOneByte_and_In : (input [0xFF#8] (start 0xF020)).cin = 0xFF#8 :: [] := rfl

/-- A string of no words, a string whose zero word stands at 0xFFFF, and one that wraps. -/
theorem test_witness_strings :
    (let s := start 0xF022
     ScanReaches s.eaPolicy (getReg .r0 s) 0 ∧ StringAt s.mem (getReg .r0 s) 0) ∧
    (let s := reg .r0 0xFFFE#16 (word 0xFFFE#16 0x41#16 (start 0xF022))
     ScanReaches s.eaPolicy (getReg .r0 s) 1 ∧ StringAt s.mem (getReg .r0 s) 1) ∧
    (let s := wrapped (reg .r0 0xFFFF#16 (word 0xFFFF#16 0x4100#16 (start 0xF024)))
     ScanReaches s.eaPolicy (getReg .r0 s) 1 ∧ StringAt s.mem (getReg .r0 s) 1) := by
  refine ⟨⟨.inl (by decide), fun k hk => absurd hk (Nat.not_lt_zero k), by decide⟩,
    ⟨.inl (by decide), fun k hk => ?_, by decide⟩, ⟨.inr ⟨rfl, by decide⟩, fun k hk => ?_, by decide⟩⟩
  · obtain rfl : k = 0 := by omega
    decide
  · obtain rfl : k = 0 := by omega
    decide

theorem test_witness_GetcAndInHoldOnEmptyInput : (start 0xF020).cin = [] := rfl

/-- The step that leaves the service held: from the fetch, resumed after `DebugEnter`, held already. -/
theorem test_witness_HeldInputServiceCompletesOnAByte :
    ((start 0xF020).cin = [] ∧ ∃ t, step (start 0xF020) = .next t ∧ t.phase = .holding .getc) ∧
    (let s := resumed 0xF023
     s.phase = .resuming ∧ s.cin = [] ∧ ∃ t, step s = .next t ∧ t.phase = .holding .inp) ∧
    (let s : State := { start 0xF023 with phase := .holding .inp }
     s.cin = [] ∧ ∃ t, step s = .next t ∧ t.phase = .holding .inp) :=
  ⟨⟨rfl, _, rfl, rfl⟩, ⟨rfl, rfl, _, rfl, rfl⟩, rfl, _, rfl, rfl⟩

theorem test_witness_StringServicesFaultPastTheEnd :
    let s := reg .r0 0xFFFF#16 (word 0xFFFF#16 0x41#16 (start 0xF022))
    s.eaPolicy = .fault ∧ ∀ a : Word, (getReg .r0 s).toNat ≤ a.toNat → readWord s.mem a ≠ 0#16 := by
  refine ⟨rfl, fun a ha => ?_⟩
  have h : (65535 : Nat) ≤ a.toNat := ha
  obtain rfl : a = 0xFFFF#16 := BitVec.eq_of_toNat_eq (by have := a.isLt; simp; omega)
  decide

/-- A memory with a byte 1 in each low cell from word `k` on, for `n` words. -/
def filled : Nat → Nat → Memory
  | _, 0 => []
  | k, n + 1 => (2 * k + 1, 1#8) :: filled (k + 1) n

theorem filled_read (k n j : Nat) (h1 : k ≤ j) (h2 : j < k + n) : readByte (filled k n) (2 * j + 1) = 1#8 := by
  induction n generalizing k with
  | zero => omega
  | succ n ih =>
    by_cases h : j = k
    · simp [filled, readByte, h]
    · rw [filled, readByte, if_neg (by omega)]
      exact ih (k + 1) (by omega) (by omega)

theorem filled_wf (k n : Nat) (h : k + n ≤ 65536) (lo : Nat) (hlo : lo ≤ 2 * k + 1) :
    memWfFrom lo (filled k n) = true := by
  induction n generalizing k lo with
  | zero => rfl
  | succ n ih =>
    have h1 : decide (lo ≤ 2 * k + 1) = true := decide_eq_true hlo
    have h2 : decide (2 * k + 1 < cellCount) = true := decide_eq_true (by unfold cellCount; omega)
    rw [filled, memWfFrom, h1, h2, ih (k + 1) (by omega) _ (by omega)]
    rfl

/-- A machine under `Wrap` with no zero word in memory. -/
def noZero (fuel : Nat) : State := { wrapped (start 0xF022) with mem := filled 0 fuel }

theorem test_witness_StringServicesWithoutZeroNeverComplete :
    (noZero 65536).eaPolicy = .wrap ∧ (∀ a : Word, readWord (noZero 65536).mem a ≠ 0#16) ∧
      memWf (noZero 65536).mem = true ∧
      ({ noZero 65536 with phase := .holding .puts } : State).phase = .holding .puts ∧
      ({ noZero 65536 with phase := .holding .putsp } : State).phase = .holding .putsp := by
  refine ⟨rfl, fun a h => ?_, filled_wf 0 65536 (by omega) 0 (by omega), rfl, rfl⟩
  have hr : readByte (noZero 65536).mem (lowCell a) = 1#8 :=
    filled_read 0 65536 a.toNat (by omega) (by have := a.isLt; omega)
  have h0 := congrArg (fun w : Word => w.getLsbD 0) h
  simp only [readWord, hr, BitVec.getLsbD_append] at h0
  simp at h0

/-! The statements over every instruction: a next state that each clause is about. -/

theorem test_witness_CondHasSevenWritersAndOneReader :
    (setsFlags (.not .r1 .r0) = true ∧ ∃ t, exec (.not .r1 .r0) State.reset = .next t) ∧
    (setsFlags (.ldr .r1 .r0 0x3F#6) = true ∧ ∃ t, exec (.ldr .r1 .r0 0x3F#6) State.reset = .next t ∧ t.fault = .memoryFault (-1)) ∧
    (setsFlags .trapOut = false ∧ (∀ n z p off, Instr.trapOut ≠ .br n z p off) ∧
      ∃ t, exec .trapOut State.reset = .next t) :=
  ⟨⟨rfl, _, rfl⟩, ⟨rfl, _, rfl, rfl⟩, ⟨rfl, (fun _ _ _ _ h => by cases h), _, rfl⟩⟩

theorem test_witness_LoadStoreFamilyProperties_effects :
    (isStore (.str .r1 .r0 0x1F#6) = true ∧ ∃ t, exec (.str .r1 .r0 0x1F#6) State.reset = .next t) ∧
    (isStore (.str .r1 .r0 0x3F#6) = true ∧ ∃ t, exec (.str .r1 .r0 0x3F#6) State.reset = .next t) ∧
    (isLoadOrLea (.lea .r1 0x1FF#9) = true ∧ setsFlags (.lea .r1 0x1FF#9) = true ∧
      ∃ t, exec (.lea .r1 0x1FF#9) State.reset = .next t) ∧
    (isLoadOrLea (.ld .r1 0x1FF#9) = true ∧ ∃ t, exec (.ld .r1 0x1FF#9) State.reset = .next t) :=
  ⟨⟨rfl, _, rfl⟩, ⟨rfl, _, rfl⟩, ⟨rfl, rfl, _, rfl⟩, ⟨rfl, _, rfl⟩⟩

theorem test_witness_LoadStoreFamilyProperties_round_trips :
    let s := reg .r2 0xCAFE#16 (reg .r6 0xFFFF#16 (word 0x3001#16 0xFFFF#16 { start 0 with pc := 0x3001#16 }))
    memWf s.mem = true ∧
    (effectiveAddress s.eaPolicy s.pc (sextInt 0#9) = .address 0x3001#16 ∧ readWord s.mem 0x3001#16 ≠ 0x3001#16 ∧
      (∃ t u, exec (.st .r2 0#9) s = .next t ∧ exec (.ld .r1 0#9) t = .next u) ∧
      ∃ t u, exec (.sti .r2 0#9) s = .next t ∧ exec (.ldi .r1 0#9) t = .next u) ∧
    (effectiveAddress s.eaPolicy (getReg .r6 s) (sextInt 0#6) = .address 0xFFFF#16 ∧
      ∃ t u, exec (.str .r2 .r6 0#6) s = .next t ∧ exec (.ldr .r1 .r6 0#6) t = .next u) :=
  ⟨rfl, ⟨rfl, by decide, ⟨_, _, rfl, rfl⟩, _, _, rfl, rfl⟩, ⟨rfl, _, _, rfl, rfl⟩⟩

theorem test_witness_JmpR7ReturnsAfterTheCall :
    linksReturn (.jsr 0x400#11) = true ∧
    ∃ t, exec (.jsr 0x400#11) State.reset = .next t ∧ getReg .r7 { t with pc := 0x4000#16 } = getReg .r7 t :=
  ⟨rfl, _, rfl, rfl⟩

theorem test_witness_OnlyNamedRegistersChange : ∃ t, exec .trapHalt State.reset = .next t := ⟨_, rfl⟩

theorem test_witness_OnlyControlTransfersChangePc :
    writesPc .trapHalt = false ∧ ∃ t, exec .trapHalt State.reset = .next t := ⟨rfl, _, rfl⟩

theorem test_witness_OnlyStoresChangeMemory :
    isStore (.jmp .r3) = false ∧ ∃ t, exec (.jmp .r3) State.reset = .next t := ⟨rfl, _, rfl⟩

theorem test_witness_OnlyListedInstructionsRaiseConditions :
    (abnormalReasonOf (.trapOther 0xFF#8) = some (.unimplementedTrap 0xFF#8) ∧
      ∃ t, exec (.trapOther 0xFF#8) State.reset = .next t) ∧
    (abnormalReasonOf (.ldr .r1 .r0 0x3F#6) = none ∧ ∃ t, exec (.ldr .r1 .r0 0x3F#6) State.reset = .next t) :=
  ⟨⟨rfl, _, rfl⟩, ⟨rfl, _, rfl⟩⟩

/-! Steps and the debugger. -/

theorem test_witness_StepRunsDecodedInstruction :
    (AboutToStep (start 0x1025) ∧ NoDebugStop (start 0x1025) ∧
      decode (readWord (start 0x1025).mem (start 0x1025).pc) = .addImm .r0 .r0 5#5 ∧
      wellFormed (.addImm .r0 .r0 5#5) = true) ∧
    (let s := debugged 1 [] (startAt 0xFFFF#16 0xF025)
     AboutToStep s ∧ NoDebugStop s ∧ decode (readWord s.mem s.pc) = .trapHalt ∧ wellFormed .trapHalt = true) :=
  ⟨⟨⟨rfl, rfl⟩, .inl rfl, rfl, rfl⟩, ⟨⟨rfl, rfl⟩, .inr ⟨by decide, by decide⟩, rfl, rfl⟩⟩

theorem test_witness_StepWithoutDebugger :
    AboutToStep (startAt 0xFFFF#16 0x0000) ∧ (startAt 0xFFFF#16 0x0000).debuggerEnabled = false := ⟨⟨rfl, rfl⟩, rfl⟩

theorem test_witness_StoppedEngineDoesNothing :
    (State.reset.phase = .ready ∧ State.reset.running = false) ∧
    (debugEnter (some 0xFFFF#16) State.reset).phase = .inDebugEnter (some 0xFFFF#16) := ⟨⟨rfl, rfl⟩, rfl⟩

theorem test_witness_PreHookStopsTheStep :
    (let s := debugged 0 [0x3000#16] (start 0)
     AboutToStep s ∧ s.debuggerEnabled = true ∧ s.pc ∈ s.breakpoints) ∧
    (let s := debugged 0 [0x2FFF#16, 0x3001#16] (start 0)
     AboutToStep s ∧ s.debuggerEnabled = true ∧ s.pc ∉ s.breakpoints ∧ s.debuggerSteps = 0) ∧
    (let s := debugged (-1) [0x2FFF#16, 0x3001#16] (start 0)
     AboutToStep s ∧ NoDebugStop s ∧ ∃ t, step s = .next t) :=
  ⟨⟨⟨rfl, rfl⟩, rfl, by decide⟩, ⟨⟨rfl, rfl⟩, rfl, by decide, rfl⟩, ⟨rfl, rfl⟩, .inr ⟨by decide, by decide⟩, _, rfl⟩

/-- A step that completes from each phase a step can begin in, and one that leaves a service held, with a budget. -/
theorem test_witness_PostHookTakesOneOffTheBudget :
    (let s := debugged 1 [] (start 0x1025)
     s.running = true ∧ ∃ t, step s = .next t ∧ t.phase = .ready) ∧
    (let s := resumed 0x1025
     s.phase ≠ .ready ∧ ∃ t, step s = .next t ∧ t.phase = .ready) ∧
    (let s : State := { input [0x41#8] (debugged 1 [] (start 0xF020)) with phase := .holding .getc }
     s.phase ≠ .ready ∧ ∃ t, step s = .next t ∧ t.phase = .ready) ∧
    (let s := resumed 0xF020
     s.phase ≠ .ready ∧ ∃ t, step s = .next t ∧ t.phase = .holding .getc) :=
  ⟨⟨rfl, _, rfl, rfl⟩, ⟨by decide, _, rfl, rfl⟩, ⟨by decide, _, rfl, rfl⟩, by decide, _, rfl, rfl⟩

theorem test_witness_ResumedStepRunsTheFetchedWord :
    (debugEnter none (start 0x1025)).phase = .inDebugEnter none := rfl

theorem test_witness_DebuggerDoesNotAlterSemantics :
    (let s := debugged 1 [] (start 0x1025)
     AboutToStep s ∧ (∃ t, step s = .next t ∧ ∀ m, t.phase ≠ .inDebugEnter m) ∧
       ∃ u, step { s with debuggerEnabled := false } = .next u) ∧
    (let s := debugged 0 [] (start 0x1025)
     AboutToStep s ∧ (∃ t, step s = .next t ∧ t.phase = .inDebugEnter none) ∧
       ∃ u, step { s with debuggerEnabled := false } = .next u) :=
  ⟨⟨⟨rfl, rfl⟩, ⟨_, rfl, fun m h => by cases h⟩, _, rfl⟩, ⟨rfl, rfl⟩, ⟨_, rfl, rfl⟩, _, rfl⟩

/-! Invariants. -/

theorem start_inv (w : Nat) (h : memWf (start w).mem = true) : MachineInv (start w) :=
  ⟨h, rfl, fun h => absurd rfl h, rfl, rfl, trivial⟩

theorem test_witness_StepKeepsMachineInvariant :
    MachineInv (start 0xF020) ∧ ∃ t, step (start 0xF020) = .next t := ⟨start_inv _ rfl, _, rfl⟩

theorem test_witness_HostActionsKeepMachineInvariant :
    MachineInv (start 0x1025) ∧ (∃ t, loadImage (some [0xFF#8, 0xFF#8, 0x12#8, 0x34#8]) (start 0x1025) = .loaded t) ∧
    MachineInv (reg .r5 0xFFFF#16 (start 0x8000)) :=
  ⟨start_inv _ rfl, ⟨_, rfl⟩, rfl, rfl, fun h => absurd rfl h, rfl, rfl, trivial⟩

/-- Two machines that differ in `IR`, the log, the output and the debugger's fields. -/
theorem test_witness_ProgramSeesOnlyItsView :
    let s := start 0x1025
    let t : State := { start 0x1025 with
      ir := 0xFFFF#16, abnormal := true, abnormalLog := [(0#16, .reservedOpcode)], cout := [1#8], breakpoints := [0x3000#16] }
    AboutToStep s ∧ AboutToStep t ∧ s.debuggerEnabled = false ∧ t.debuggerEnabled = false ∧ s.eaPolicy = t.eaPolicy ∧
      programView s = programView t ∧ (∃ u, step s = .next u) ∧ ∃ v, step t = .next v :=
  ⟨⟨rfl, rfl⟩, ⟨rfl, rfl⟩, rfl, rfl, rfl, rfl, ⟨_, rfl⟩, _, rfl⟩

/-! Encoding, loading, the run's end. -/

theorem test_witness_DecodeInvertsEncode : wellFormed (.trapOther 0x26#8) = true := by decide

theorem test_witness_EveryWordMatchesExactlyOneRow :
    (wellFormed (.addImm .r0 .r0 0#5) = true ∧
      0x1025#16 &&& rowMask (.addImm .r0 .r0 0#5) = rowMatch (.addImm .r0 .r0 0#5) ∧
      ∀ v, Instr.addImm .r0 .r0 0#5 = .trapOther v → isServiceVector ((0x1025#16).extractLsb' 0 8) = false) ∧
    (wellFormed (.trapOther 0#8) = true ∧ 0xF026#16 &&& rowMask (.trapOther 0#8) = rowMatch (.trapOther 0#8) ∧
      ∀ v, Instr.trapOther 0#8 = .trapOther v → isServiceVector ((0xF026#16).extractLsb' 0 8) = false) :=
  ⟨⟨rfl, rfl, fun _ h => by cases h⟩, ⟨rfl, rfl, fun _ _ => rfl⟩⟩

theorem test_witness_IgnoredBitsAreNotDecoded :
    wellFormed (.jmp .r7) = true ∧ 0xC1C0#16 = encode (.jmp .r7) := by decide

/-- Odd and even sources, at the last length that fits and the first that does not, and an address on each side of the
words written. -/
theorem test_witness_LoadImageWritesTheWords :
    memWf State.reset.mem = true ∧ [0x30#8, 0x00#8, 0x10#8].length % 2 = 1 ∧
    ([0x12#8, 0x34#8, 0x56#8, 0x78#8].length % 2 = 0 ∧
      65536 < (0xFF#8 : Byte).toNat * 256 + (0xFF#8 : Byte).toNat + [0x12#8, 0x34#8, 0x56#8, 0x78#8].length / 2) ∧
    ([0x12#8, 0x34#8].length % 2 = 0 ∧
      (0xFF#8 : Byte).toNat * 256 + (0xFF#8 : Byte).toNat + [0x12#8, 0x34#8].length / 2 ≤ 65536 ∧
      0 < [0x12#8, 0x34#8].length / 2 ∧ (0xFFFE#16 : Word).toNat < (0xFF#8 : Byte).toNat * 256 + (0xFF#8 : Byte).toNat) ∧
    ((0x00#8 : Byte).toNat * 256 + (0x00#8 : Byte).toNat + [0x12#8, 0x34#8].length / 2 ≤ (1#16 : Word).toNat) := by decide

theorem test_witness_FinalStatusOfARun :
    (let s : State := { State.reset with fault := .memoryFault (-1) }
     s.phase = .ready ∧ s.running = false ∧ s.fault = .memoryFault (-1)) ∧
    (let s : State := { State.reset with abnormal := true }
     s.phase = .ready ∧ s.running = false ∧ s.fault = .noFault ∧ s.abnormal = true) ∧
    (State.reset.phase = .ready ∧ State.reset.running = false ∧ State.reset.fault = .noFault ∧
      State.reset.abnormal = false) ∧
    ((startRun State.reset).running = true ∧ (debugEnter none State.reset).phase ≠ .ready) := by decide

end Sys2Proof.Tests
end

section
/-! The condition code after a result: the three ranges of 40_instruction_cycle.md R90 on `ccOf`, and `setcc`. -/

namespace Sys2Proof.Machine

theorem ccOf_of_high {v : Word} (h : 0x8000 ≤ v.toNat) : ccOf v = Config.flN := by
  have hmsb : v.msb = true := by rw [BitVec.msb_eq_decide]; exact decide_eq_true h
  simp [ccOf, hmsb]

@[simp] theorem ccOf_zero : ccOf 0#16 = Config.flZ := rfl

theorem ccOf_of_low {v : Word} (hpos : 0x0001 ≤ v.toNat) (hlow : v.toNat ≤ 0x7FFF) : ccOf v = Config.flP := by
  have hmsb : v.msb = false := by rw [BitVec.msb_eq_decide]; exact decide_eq_false (by omega)
  have hne : v ≠ 0#16 := by rintro rfl; exact absurd hpos (by decide)
  simp [ccOf, hmsb, hne]

/-- `ccOf` goes by the sign bit and a comparison with zero; `CcOfResult` by the ranges of the word's number. -/
theorem ccOfResult_ccOf (v : Word) : CcOfResult v (ccOf v) := by
  refine ⟨ccOf_of_high, fun hzero => ?_, fun ⟨hpos, hlow⟩ => ccOf_of_low hpos hlow⟩
  obtain rfl : v = 0#16 := BitVec.eq_of_toNat_eq hzero
  exact ccOf_zero

theorem setcc_changes_only_cond (v : Word) (s : State) : setcc v s = { s with cond := (setcc v s).cond } := rfl

theorem writeDest_eq_setcc_setReg (dr : Reg) (v : Word) (s : State) : writeDest dr v s = setcc v (setReg dr v s) := rfl

/-- Settles O15: the ranges are `ccOfResult_ccOf`, the word DR then holds is `getReg_writeDest_self`. -/
theorem setccFollowsTheSign : Obligations.SetccFollowsTheSign :=
  ⟨fun v s => ⟨setcc_changes_only_cond v s, ccOfResult_ccOf v⟩,
    fun dr v s => ⟨writeDest_eq_setcc_setReg dr v s, getReg_writeDest_self s dr v⟩⟩

end Sys2Proof.Machine
end

section
/-! The return linkage: R7 after each effect of an instruction that links, and where `JMP R7` then goes (43_control.md
R134). -/

namespace Sys2Proof.Machine

/-- No instruction that links is a store or sets the flags, so its effects are a call's and the services'. -/
theorem setsFlags_isStore_of_linksReturn {i : Instr} :
    linksReturn i = true → setsFlags i = false ∧ isStore i = false := by
  cases i <;> simp [linksReturn, setsFlags, isStore]

theorem exec_jmp (base : Reg) (s : State) : exec (.jmp base) s = .next (setPc (getReg base s) s) := rfl

/-- GETC and IN put the byte in R0 after the link, and the link stands. -/
theorem getReg_r7_setReg_r0 (v : Word) (s : State) : getReg .r7 (setReg .r0 v s) = getReg .r7 s :=
  getReg_setReg_ne s v (by decide)

/-- Whatever a service does after the link (output, a hold, a fault, the byte in R0), R7 keeps the return address. -/
theorem getReg_r7_of_effect {i : Instr} {s t : State} (hlink : linksReturn i = true) (heffect : Effect i s t) :
    getReg .r7 t = s.pc := by
  obtain ⟨hflags, hstore⟩ := setsFlags_isStore_of_linksReturn hlink
  cases heffect with
  | result _ _ hf => simp [hflags] at hf
  | store _ _ hs => simp [hstore] at hs
  | fault _ _ hl => simp [hlink] at hl
  | abnormal _ _ hl => simp [hlink] at hl
  | stay | branch | jump => cases hlink
  | call | otherTrap | halt | out | string | stringFault => simp
  | getcHeld | inHeld | stringHeld => exact getReg_linkReturn_self s
  | getc | inDone => exact (getReg_r7_setReg_r0 _ _).trans (getReg_linkReturn_self s)

/-- Settles O36: the link is `getReg_r7_of_effect` over everything `exec` can do, the return is `exec_jmp`. -/
theorem jmpR7ReturnsAfterTheCall : Obligations.JmpR7ReturnsAfterTheCall := by
  intro i s t u hlink hexec
  have hr7 : getReg .r7 t = s.pc := getReg_r7_of_effect hlink (exec_effect hexec)
  refine ⟨hr7, fun hkept => ?_⟩
  rw [exec_jmp, hkept, hr7]
  rfl

end Sys2Proof.Machine
end

section
/-! The machine's invariant: one rule for each operation on the state, then each effect of an instruction, each way a
held service goes on, and the step. -/

namespace Sys2Proof.Machine

/-- The invariant of a state in which a handler runs: no step stands in the middle (40_instruction_cycle.md R81). -/
def HandlerInv (s : State) : Prop := MachineInv s ∧ s.phase = .ready

/-! What a handler's operations do to the invariant. -/

theorem condLegal_ccOf (v : Word) : condLegal (ccOf v) = true := by
  unfold ccOf
  split
  · rfl
  · split <;> rfl

/-- Registers, `pc`, the console and the fetched word are no part of the invariant while a handler runs. -/
theorem handlerInv_of_same {s t : State} (h : HandlerInv s) (hmem : t.mem = s.mem) (hcond : t.cond = s.cond)
    (hstatus : SameStatus s t) (hbp : t.breakpoints = s.breakpoints) (hphase : t.phase = s.phase) : HandlerInv t := by
  obtain ⟨⟨imem, icond, ifault, iabn, ibp, -⟩, hready⟩ := h
  obtain ⟨hrun, habn, hlog, hfault⟩ := hstatus
  have hready' : t.phase = .ready := hphase.trans hready
  refine ⟨⟨hmem ▸ imem, hcond ▸ icond, ?_, ?_, hbp ▸ ibp, by simp [PhaseAgrees, hready']⟩, hready'⟩
  · rwa [FaultStops, hfault, hrun]
  · rwa [AbnormalAgrees, habn, hlog]

theorem handlerInv_setReg {s : State} (h : HandlerInv s) (r : Reg) (v : Word) : HandlerInv (setReg r v s) :=
  handlerInv_of_same h rfl rfl ⟨rfl, rfl, rfl, rfl⟩ rfl rfl

theorem handlerInv_linkReturn {s : State} (h : HandlerInv s) : HandlerInv (linkReturn s) :=
  handlerInv_setReg h .r7 s.pc

theorem handlerInv_setPc {s : State} (h : HandlerInv s) (a : Word) : HandlerInv (setPc a s) :=
  handlerInv_of_same h rfl rfl ⟨rfl, rfl, rfl, rfl⟩ rfl rfl

theorem handlerInv_consoleOut {s : State} (h : HandlerInv s) (bs : List Byte) : HandlerInv (consoleOut bs s) :=
  handlerInv_of_same h rfl rfl ⟨rfl, rfl, rfl, rfl⟩ rfl rfl

theorem handlerInv_setInput {s : State} (h : HandlerInv s) (bs : List Byte) : HandlerInv { s with cin := bs } :=
  handlerInv_of_same h rfl rfl ⟨rfl, rfl, rfl, rfl⟩ rfl rfl

theorem handlerInv_advancePc {s : State} (h : HandlerInv s) : HandlerInv (advancePc s) :=
  handlerInv_setPc h (s.pc + 1#16)

theorem handlerInv_fetch {s : State} (h : HandlerInv s) : HandlerInv (fetch s) :=
  handlerInv_of_same h rfl rfl ⟨rfl, rfl, rfl, rfl⟩ rfl rfl

theorem handlerInv_setcc {s : State} (h : HandlerInv s) (v : Word) : HandlerInv (setcc v s) := by
  obtain ⟨⟨hmem, -, hfault, habn, hbp, -⟩, hready⟩ := h
  exact ⟨⟨hmem, condLegal_ccOf v, hfault, habn, hbp, by simp [PhaseAgrees, hready]⟩, hready⟩

theorem handlerInv_writeDest {s : State} (h : HandlerInv s) (r : Reg) (v : Word) : HandlerInv (writeDest r v s) :=
  handlerInv_setcc (handlerInv_setReg h r v) v

theorem handlerInv_storeWord {s : State} (h : HandlerInv s) (a v : Word) : HandlerInv (storeWord a v s) := by
  obtain ⟨⟨hmem, hcond, hfault, habn, hbp, -⟩, hready⟩ := h
  exact ⟨⟨writeWord_wf a v hmem, hcond, hfault, habn, hbp, by simp [PhaseAgrees, hready]⟩, hready⟩

theorem handlerInv_raiseHalt {s : State} (h : HandlerInv s) : HandlerInv (raiseHalt s) := by
  obtain ⟨⟨hmem, hcond, -, habn, hbp, -⟩, hready⟩ := h
  exact ⟨⟨hmem, hcond, fun _ => rfl, habn, hbp, by simp [PhaseAgrees, hready]⟩, hready⟩

/-- The log gains an entry where the sticky bit is set. -/
theorem handlerInv_raiseAbnormal {s : State} (h : HandlerInv s) (r : AbnormalReason) :
    HandlerInv (raiseAbnormal r s) := by
  obtain ⟨⟨hmem, hcond, hfault, -, hbp, -⟩, hready⟩ := h
  exact ⟨⟨hmem, hcond, hfault, by simp [AbnormalAgrees], hbp, by simp [PhaseAgrees, hready]⟩, hready⟩

/-- The latch is set where `running` is cleared. -/
theorem handlerInv_raiseMemoryFault {s : State} (h : HandlerInv s) (x : Int) : HandlerInv (raiseMemoryFault x s) := by
  obtain ⟨⟨hmem, hcond, -, habn, hbp, -⟩, hready⟩ := h
  exact ⟨⟨hmem, hcond, fun _ => rfl, habn, hbp, by simp [PhaseAgrees, hready]⟩, hready⟩

theorem handlerInv_toReady {s : State} (h : MachineInv s) : HandlerInv (toReady s) := by
  obtain ⟨hmem, hcond, hfault, habn, hbp, -⟩ := h
  exact ⟨⟨hmem, hcond, hfault, habn, hbp, trivial⟩, rfl⟩

/-! Where a step is left standing in the middle. -/

/-- A service is held with the word that asked for it in `IR` and its return address in R7. -/
theorem machineInv_holding {s : State} {k : Hold} (h : HandlerInv s) (hir : decode s.ir = holdInstr k)
    (hlink : getReg .r7 s = s.pc) (hwrap : k = .puts ∨ k = .putsp → s.eaPolicy = .wrap) :
    MachineInv { s with phase := .holding k } := by
  obtain ⟨⟨hmem, hcond, hfault, habn, hbp, -⟩, -⟩ := h
  exact ⟨hmem, hcond, hfault, habn, hbp, hir, hlink, hwrap⟩

theorem machineInv_debugEnter {s : State} (h : HandlerInv s) (hon : s.debuggerEnabled = true) (m : Option Word) :
    MachineInv (debugEnter m s) := by
  obtain ⟨⟨hmem, hcond, hfault, habn, hbp, -⟩, -⟩ := h
  exact ⟨hmem, hcond, hfault, habn, hbp, hon⟩

/-- The step budget is no part of the invariant (10_state.md R20; log 8). -/
theorem machineInv_setBudget {s : State} (h : MachineInv s) (n : Int) : MachineInv { s with debuggerSteps := n } := by
  obtain ⟨hmem, hcond, hfault, habn, hbp, hphase⟩ := h
  exact ⟨hmem, hcond, hfault, habn, hbp, hphase⟩

theorem handlerInv_setBudget {s : State} (h : HandlerInv s) (n : Int) : HandlerInv { s with debuggerSteps := n } :=
  ⟨machineInv_setBudget h.1 n, h.2⟩

theorem machineInv_of_retire {s t : State} (h : MachineInv s) (hr : retire (.next s) = .next t) : MachineInv t := by
  obtain ⟨n, hn⟩ := retire_next_eq s
  rw [hn] at hr
  cases hr
  exact machineInv_setBudget h n

theorem machineInv_preHook {s : State} (h : HandlerInv s) : MachineInv (preHook s) := by
  rcases preHook_cases s with hp | ⟨hon, -, hp⟩ | ⟨hon, -, -, hp⟩ <;> rw [hp]
  · exact h.1
  · exact machineInv_debugEnter h hon _
  · exact machineInv_debugEnter (handlerInv_setBudget h (-1)) hon none

/-! Instructions and held services. -/

/-- Every effect of the instruction in `IR` keeps the invariant. -/
theorem machineInv_of_effect {i : Instr} {s t : State} (h : HandlerInv s) (hir : decode s.ir = i)
    (heffect : Effect i s t) : MachineInv t := by
  have hlink := handlerInv_linkReturn h
  cases heffect with
  | result r v => exact (handlerInv_writeDest h r v).1
  | store a v => exact (handlerInv_storeWord h a v).1
  | fault x => exact (handlerInv_raiseMemoryFault h x).1
  | stay => exact h.1
  | branch | jump => exact (handlerInv_setPc h _).1
  | call a => exact (handlerInv_setPc hlink a).1
  | abnormal r => exact (handlerInv_raiseAbnormal h r).1
  | otherTrap v => exact (handlerInv_raiseAbnormal hlink _).1
  | halt => exact (handlerInv_raiseHalt hlink).1
  | out b => exact (handlerInv_consoleOut hlink [b]).1
  | getcHeld => exact machineInv_holding hlink hir rfl (by simp)
  | getc c rest => exact (handlerInv_setReg (handlerInv_setInput hlink rest) .r0 _).1
  | inHeld => exact machineInv_holding (handlerInv_consoleOut hlink _) hir rfl (by simp)
  | inDone c rest =>
    exact (handlerInv_setReg (handlerInv_consoleOut (handlerInv_setInput (handlerInv_consoleOut hlink _) rest) [c]) .r0 _).1
  | string k hk bs => exact (handlerInv_consoleOut hlink bs).1
  | stringFault k hk bs x => exact (handlerInv_raiseMemoryFault (handlerInv_consoleOut hlink bs) x).1
  | stringHeld k hk bs hwrap => exact machineInv_holding (handlerInv_consoleOut hlink bs) hir rfl fun _ => hwrap

/-- The rest of PUTS or PUTSP: it completes, faults, or is held for another lap under `Wrap`. -/
theorem machineInv_of_stringBody {s t : State} {k : Hold} {emit : Word → List Byte} (h : HandlerInv s)
    (hir : decode s.ir = holdInstr k) (hlink : getReg .r7 s = s.pc) (hbody : stringBody k emit s = .next t) :
    MachineInv t := by
  obtain ⟨bs, hb | ⟨x, -, -, hb⟩ | ⟨hwrap, hb⟩⟩ := stringBody_outcome k emit s <;> (rw [hb] at hbody; cases hbody)
  · exact (handlerInv_consoleOut h bs).1
  · exact (handlerInv_raiseMemoryFault (handlerInv_consoleOut h bs) x).1
  · exact machineInv_holding (handlerInv_consoleOut h bs) hir hlink fun _ => hwrap

/-- A held service that is carried on keeps the invariant: it completes, or is held with nothing it needs lost. -/
theorem machineInv_of_continueHeld {k : Hold} {s t : State} (h : HandlerInv s) (hir : decode s.ir = holdInstr k)
    (hlink : getReg .r7 s = s.pc) (hbody : continueHeld k s = .next t) : MachineInv t := by
  cases k with
  | getc =>
    rcases getcBody_cases s with ⟨-, hb⟩ | ⟨c, rest, -, hb⟩ <;> (rw [continueHeld, hb] at hbody; cases hbody)
    · exact machineInv_holding h hir hlink (by simp)
    · exact (handlerInv_setReg (handlerInv_setInput h rest) .r0 _).1
  | inp =>
    rcases inBody_cases s with ⟨-, hb⟩ | ⟨c, rest, -, hb⟩ <;> (rw [continueHeld, hb] at hbody; cases hbody)
    · exact machineInv_holding h hir hlink (by simp)
    · exact (handlerInv_setReg (handlerInv_consoleOut (handlerInv_setInput h rest) [c]) .r0 _).1
  | puts | putsp => exact machineInv_of_stringBody h hir hlink hbody

theorem retire_eq_next {r : Result} {t : State} (h : retire r = .next t) : ∃ u, r = .next u ∧ retire (.next u) = .next t := by
  cases r with
  | next u => exact ⟨u, rfl, h⟩
  | fault r => cases h
  | refused r => cases h

theorem machineInv_of_runInstruction {s t : State} (h : HandlerInv s) (hrun : runInstruction s = .next t) :
    MachineInv t := by
  obtain ⟨u, hexec, hretire⟩ := retire_eq_next hrun
  exact machineInv_of_retire (machineInv_of_effect (handlerInv_advancePc h) rfl (exec_effect hexec)) hretire

/-- Settles O49, along the ways a step can go (`step_cases`). -/
theorem stepKeepsMachineInvariant : Obligations.StepKeepsMachineInvariant := by
  intro s t hinv hstep
  rcases step_cases s with ⟨-, hs⟩ | ⟨hready, -, -, hs⟩ | ⟨hready, -, hphase, hs⟩ | ⟨-, hs⟩ | ⟨k, hheld, hs⟩ <;>
    rw [hs] at hstep
  · cases hstep
    exact hinv
  · cases hstep
    exact machineInv_preHook (handlerInv_fetch ⟨hinv, hready⟩)
  · exact machineInv_of_runInstruction ⟨machineInv_preHook (handlerInv_fetch ⟨hinv, hready⟩), hphase⟩ hstep
  · exact machineInv_of_runInstruction (handlerInv_toReady hinv) hstep
  · obtain ⟨u, hbody, hretire⟩ := retire_eq_next hstep
    have hphase := hinv.phaseAgrees
    rw [PhaseAgrees, hheld] at hphase
    obtain ⟨hir, hlink, -⟩ := hphase
    exact machineInv_of_retire (machineInv_of_continueHeld (handlerInv_toReady hinv) hir hlink hbody) hretire

end Sys2Proof.Machine
end

section
/-! The host's side (70_reset_and_hazards.md): reset, the loader, the run start, the final status, and the invariant over
each action of the host. -/

namespace Sys2Proof.Machine

/-! Reset, run start, final status. -/

/-- Settles O50: both states lie between two steps with an empty memory. -/
theorem resetMeetsMachineInvariant : Obligations.ResetMeetsMachineInvariant :=
  have hreset : MachineInv State.reset := ⟨rfl, rfl, fun h => absurd rfl h, rfl, rfl, trivial⟩
  have hstart : MachineInv (startRun State.reset) := ⟨rfl, rfl, fun h => absurd rfl h, rfl, rfl, trivial⟩
  ⟨hreset, hstart⟩

/-- Settles O58, by the fields of `startRun`. -/
theorem runStartSetsPcAndStatus : Obligations.RunStartSetsPcAndStatus := fun _ =>
  ⟨rfl, rfl, rfl, rfl, rfl, rfl, rfl, rfl, rfl, rfl, rfl, rfl, rfl, rfl, rfl⟩

theorem getReg_reset (r : Reg) : getReg r State.reset = 0x0000#16 := by cases r <;> rfl

theorem readWord_nil (a : Word) : readWord [] a = 0x0000#16 := by
  simp [readWord, readByte, unlistedByte]

/-- Settles O59: an empty memory lists no cell, so every word reads as zero. -/
theorem resetLeavesTheSpecsValues : Obligations.ResetLeavesTheSpecsValues :=
  ⟨getReg_reset, rfl, rfl, readWord_nil, rfl, rfl, rfl, rfl, rfl, rfl, fun _ => rfl, rfl⟩

theorem finalStatus_of_fault {s : State} {x : Int} (hready : s.phase = .ready) (hstopped : s.running = false)
    (hfault : s.fault = .memoryFault x) : finalStatus s = some (.failed x) := by
  simp [finalStatus, hready, hstopped, hfault]

theorem finalStatus_of_noFault {s : State} (hready : s.phase = .ready) (hstopped : s.running = false)
    (hfault : s.fault = .noFault) :
    finalStatus s = some (if s.abnormal then .completedAbnormally else .completedNormally) := by
  simp [finalStatus, hready, hstopped, hfault]

theorem finalStatus_of_running {s : State} (h : s.running = true) : finalStatus s = none :=
  if_neg fun ⟨_, hstopped⟩ => by simp [h] at hstopped

theorem finalStatus_of_unfinished {s : State} (h : s.phase ≠ .ready) : finalStatus s = none :=
  if_neg fun ⟨hready, _⟩ => h hready

/-- Settles O60. -/
theorem finalStatusOfARun : Obligations.FinalStatusOfARun := by
  refine fun s => ⟨fun hready hstopped => ⟨fun x => finalStatus_of_fault hready hstopped, ?_, ?_⟩,
    finalStatus_of_running, finalStatus_of_unfinished⟩ <;>
    (intro hfault habn; rw [finalStatus_of_noFault hready hstopped hfault, habn]; rfl)

/-! What a load writes. -/

theorem writeWords_wf {m : Memory} (hm : memWf m = true) (a : Nat) (ws : List Word) :
    memWf (writeWords m a ws) = true := by
  induction ws generalizing m a with
  | nil => exact hm
  | cons w rest ih => exact ih (writeWord_wf _ w hm) (a + 1)

/-- Words outside the range written are left alone; the range does not wrap. -/
theorem readWord_writeWords_outside (m : Memory) {a : Nat} {ws : List Word} (hfit : a + ws.length ≤ 65536) {b : Word}
    (hb : b.toNat < a ∨ a + ws.length ≤ b.toNat) : readWord (writeWords m a ws) b = readWord m b := by
  induction ws generalizing m a with
  | nil => rfl
  | cons w rest ih =>
    rw [List.length_cons] at hfit hb
    have hne : b ≠ BitVec.ofNat 16 a := by
      rintro rfl
      rw [BitVec.toNat_ofNat, Nat.mod_eq_of_lt (by omega)] at hb
      omega
    rw [writeWords, ih _ (by omega) (by omega), readWord_writeWord_ne hne]

/-- The word at index `k` of the range written: later words of the image lie above it. -/
theorem readWord_writeWords_at {m : Memory} (hm : memWf m = true) {a : Nat} {ws : List Word}
    (hfit : a + ws.length ≤ 65536) {k : Nat} (hk : k < ws.length) :
    readWord (writeWords m a ws) (BitVec.ofNat 16 (a + k)) = ws[k] := by
  induction ws generalizing m a k with
  | nil => exact absurd hk (Nat.not_lt_zero k)
  | cons w rest ih =>
    rw [List.length_cons] at hfit hk
    cases k with
    | zero =>
      have habove : (BitVec.ofNat 16 a).toNat < a + 1 := by
        rw [BitVec.toNat_ofNat]
        omega
      show readWord (writeWords (writeWord m (BitVec.ofNat 16 a) w) (a + 1) rest) (BitVec.ofNat 16 a) = w
      rw [readWord_writeWords_outside _ (by omega) (.inl habove), readWord_writeWord_self _ _ hm]
    | succ k =>
      have := ih (writeWord_wf (BitVec.ofNat 16 a) w hm) (a := a + 1) (k := k) (by omega) (by omega)
      rw [writeWords, show a + (k + 1) = a + 1 + k by omega, this]
      rfl

/-! The image's words. -/

theorem toNat_wordOfBytes (hi lo : Byte) : (wordOfBytes hi lo).toNat = hi.toNat * 256 + lo.toNat := by
  rw [wordOfBytes, BitVec.toNat_append, ← Nat.shiftLeft_add_eq_or_of_lt lo.isLt, Nat.shiftLeft_eq]

theorem length_imageWords : ∀ bs : List Byte, (imageWords bs).length = bs.length / 2
  | [] => rfl
  | [_] => by simp [imageWords]
  | _ :: _ :: rest => by
    rw [imageWords, List.length_cons, length_imageWords rest, List.length_cons, List.length_cons]
    omega

theorem imageWords_getElem : ∀ (bs : List Byte) (k : Nat) (hk : k < (imageWords bs).length),
    (imageWords bs)[k] = wordOfBytes (bs.getD (2 * k) 0#8) (bs.getD (2 * k + 1) 0#8)
  | [], _, hk => absurd hk (Nat.not_lt_zero _)
  | [_], _, hk => absurd hk (Nat.not_lt_zero _)
  | _ :: _ :: _, 0, _ => rfl
  | _ :: _ :: rest, k + 1, hk => imageWords_getElem rest k (Nat.lt_of_succ_lt_succ hk)

/-! The loader. -/

theorem loadImage_odd (s : State) {bs : List Byte} (hodd : bs.length % 2 = 1) :
    loadImage (some bs) s = .failed .oddLength := by
  have hne : bs ≠ [] := by rintro rfl; cases hodd
  simp [loadImage, hne, hodd]

theorem loadImage_even (s : State) (b0 b1 : Byte) {bs : List Byte} (heven : bs.length % 2 = 0) :
    loadImage (some (b0 :: b1 :: bs)) s = loadWords (wordOfBytes b0 b1 :: imageWords bs) s := by
  have hlen : ¬ (b0 :: b1 :: bs).length % 2 = 1 := by simp only [List.length_cons]; omega
  rw [loadImage, if_neg (List.cons_ne_nil _ _), if_neg hlen, imageWords]

theorem loadWords_overrun (s : State) {origin : Word} {ws : List Word} (h : 65536 < origin.toNat + ws.length) :
    loadWords (origin :: ws) s = .failed .outOfBounds := if_pos h

theorem loadWords_fits (s : State) {origin : Word} {ws : List Word} (h : origin.toNat + ws.length ≤ 65536) :
    loadWords (origin :: ws) s = .loaded { s with mem := writeWords s.mem origin.toNat ws } := if_neg (by omega)

/-- Settles O57: the errors in their order, then `writeWords` inside and outside the words of the image. -/
theorem loadImageWritesTheWords : Obligations.LoadImageWritesTheWords := by
  intro s hm
  refine ⟨rfl, rfl, fun bs => loadImage_odd s, fun b0 b1 bs heven => ?_⟩
  rw [loadImage_even s b0 b1 heven, ← toNat_wordOfBytes, ← length_imageWords]
  refine ⟨loadWords_overrun s, fun hfits => ⟨_, loadWords_fits s hfits, rfl, fun k hk => ?_, fun a ha => ?_⟩⟩
  · rw [readWord_writeWords_at hm hfits hk, imageWords_getElem, toNat_wordOfBytes]
  · exact readWord_writeWords_outside s.mem hfits ha

/-! The invariant over the host's actions. -/

theorem loadWords_eq_loaded {ws : List Word} {s t : State} (h : loadWords ws s = .loaded t) :
    ∃ a vs, t = { s with mem := writeWords s.mem a vs } := by
  cases ws with
  | nil => cases h
  | cons origin contents =>
    rcases Nat.lt_or_ge 65536 (origin.toNat + contents.length) with hover | hfits
    · rw [loadWords_overrun s hover] at h
      cases h
    · rw [loadWords_fits s hfits] at h
      cases h
      exact ⟨_, _, rfl⟩

/-- A load changes memory only, and that by writing words. -/
theorem loadImage_eq_loaded {source : Option (List Byte)} {s t : State} (h : loadImage source s = .loaded t) :
    ∃ a vs, t = { s with mem := writeWords s.mem a vs } := by
  cases source with
  | none => cases h
  | some bytes =>
    simp only [loadImage] at h
    split_ifs at h
    exact loadWords_eq_loaded h

theorem machineInv_setMem {s : State} (h : MachineInv s) {m : Memory} (hm : memWf m = true) :
    MachineInv { s with mem := m } := by
  obtain ⟨-, hcond, hfault, habn, hbp, hphase⟩ := h
  exact ⟨hm, hcond, hfault, habn, hbp, hphase⟩

theorem machineInv_startRun {s : State} (h : MachineInv s) : MachineInv (startRun s) := by
  obtain ⟨hmem, hcond, -, -, hbp, -⟩ := h
  exact ⟨hmem, hcond, fun hf => absurd rfl hf, rfl, hbp, trivial⟩

theorem machineInv_supplyInput {s : State} (h : MachineInv s) (b : Byte) : MachineInv (supplyInput b s) := by
  obtain ⟨hmem, hcond, hfault, habn, hbp, hphase⟩ := h
  exact ⟨hmem, hcond, hfault, habn, hbp, hphase⟩

/-- A resumed step needs the debugger on, which the call it returns from bears out. -/
theorem machineInv_debugReturn {s chosen : State} (h : MachineInv s) (hchosen : MachineInv chosen) :
    MachineInv (debugReturn chosen s) := by
  unfold debugReturn
  split
  next m hp =>
    have hon := h.phaseAgrees
    rw [PhaseAgrees, hp] at hon
    obtain ⟨hmem, hcond, hfault, habn, hbp, -⟩ := hchosen
    exact ⟨hmem, hcond, hfault, habn, hbp, hon⟩
  next => exact h

/-- Settles O51, an action at a time. -/
theorem hostActionsKeepMachineInvariant : Obligations.HostActionsKeepMachineInvariant := by
  refine fun s h => ⟨fun source t hload => ?_, machineInv_startRun h, machineInv_supplyInput h, fun chosen =>
    machineInv_debugReturn h⟩
  obtain ⟨a, ws, rfl⟩ := loadImage_eq_loaded hload
  exact machineInv_setMem h (writeWords_wf h.memory a ws)

end Sys2Proof.Machine
end

section
/-! The decoder, a row at a time (30_encoding.md R52 to R59): which instruction the words of a row decode to. -/

namespace Sys2Proof

variable {w : Word}

theorem decode_br (h : w.extractLsb' 12 4 = 0#4) :
    decode w = .br (w.getLsbD 11) (w.getLsbD 10) (w.getLsbD 9) (w.extractLsb' 0 9) := by
  rw [decode, opcodeOf, h]; rfl

theorem decode_addReg (h : w.extractLsb' 12 4 = 1#4) (h5 : w.getLsbD 5 = false) :
    decode w = .addReg (regOfBits (w.extractLsb' 9 3)) (regOfBits (w.extractLsb' 6 3)) (regOfBits (w.extractLsb' 0 3)) := by
  rw [decode, opcodeOf, h]; exact if_neg (Bool.eq_false_iff.mp h5)

theorem decode_addImm (h : w.extractLsb' 12 4 = 1#4) (h5 : w.getLsbD 5 = true) :
    decode w = .addImm (regOfBits (w.extractLsb' 9 3)) (regOfBits (w.extractLsb' 6 3)) (w.extractLsb' 0 5) := by
  rw [decode, opcodeOf, h]; exact if_pos h5

theorem decode_ld (h : w.extractLsb' 12 4 = 2#4) :
    decode w = .ld (regOfBits (w.extractLsb' 9 3)) (w.extractLsb' 0 9) := by
  rw [decode, opcodeOf, h]; rfl

theorem decode_st (h : w.extractLsb' 12 4 = 3#4) :
    decode w = .st (regOfBits (w.extractLsb' 9 3)) (w.extractLsb' 0 9) := by
  rw [decode, opcodeOf, h]; rfl

theorem decode_jsr (h : w.extractLsb' 12 4 = 4#4) (h11 : w.getLsbD 11 = true) :
    decode w = .jsr (w.extractLsb' 0 11) := by
  rw [decode, opcodeOf, h]; exact if_pos h11

theorem decode_jsrr (h : w.extractLsb' 12 4 = 4#4) (h11 : w.getLsbD 11 = false) :
    decode w = .jsrr (regOfBits (w.extractLsb' 6 3)) := by
  rw [decode, opcodeOf, h]; exact if_neg (Bool.eq_false_iff.mp h11)

theorem decode_andReg (h : w.extractLsb' 12 4 = 5#4) (h5 : w.getLsbD 5 = false) :
    decode w = .andReg (regOfBits (w.extractLsb' 9 3)) (regOfBits (w.extractLsb' 6 3)) (regOfBits (w.extractLsb' 0 3)) := by
  rw [decode, opcodeOf, h]; exact if_neg (Bool.eq_false_iff.mp h5)

theorem decode_andImm (h : w.extractLsb' 12 4 = 5#4) (h5 : w.getLsbD 5 = true) :
    decode w = .andImm (regOfBits (w.extractLsb' 9 3)) (regOfBits (w.extractLsb' 6 3)) (w.extractLsb' 0 5) := by
  rw [decode, opcodeOf, h]; exact if_pos h5

theorem decode_ldr (h : w.extractLsb' 12 4 = 6#4) :
    decode w = .ldr (regOfBits (w.extractLsb' 9 3)) (regOfBits (w.extractLsb' 6 3)) (w.extractLsb' 0 6) := by
  rw [decode, opcodeOf, h]; rfl

theorem decode_str (h : w.extractLsb' 12 4 = 7#4) :
    decode w = .str (regOfBits (w.extractLsb' 9 3)) (regOfBits (w.extractLsb' 6 3)) (w.extractLsb' 0 6) := by
  rw [decode, opcodeOf, h]; rfl

theorem decode_rti (h : w.extractLsb' 12 4 = 8#4) : decode w = .rti := by
  rw [decode, opcodeOf, h]; rfl

theorem decode_not (h : w.extractLsb' 12 4 = 9#4) :
    decode w = .not (regOfBits (w.extractLsb' 9 3)) (regOfBits (w.extractLsb' 6 3)) := by
  rw [decode, opcodeOf, h]; rfl

theorem decode_ldi (h : w.extractLsb' 12 4 = 10#4) :
    decode w = .ldi (regOfBits (w.extractLsb' 9 3)) (w.extractLsb' 0 9) := by
  rw [decode, opcodeOf, h]; rfl

theorem decode_sti (h : w.extractLsb' 12 4 = 11#4) :
    decode w = .sti (regOfBits (w.extractLsb' 9 3)) (w.extractLsb' 0 9) := by
  rw [decode, opcodeOf, h]; rfl

theorem decode_jmp (h : w.extractLsb' 12 4 = 12#4) : decode w = .jmp (regOfBits (w.extractLsb' 6 3)) := by
  rw [decode, opcodeOf, h]; rfl

theorem decode_res (h : w.extractLsb' 12 4 = 13#4) : decode w = .res := by
  rw [decode, opcodeOf, h]; rfl

theorem decode_lea (h : w.extractLsb' 12 4 = 14#4) :
    decode w = .lea (regOfBits (w.extractLsb' 9 3)) (w.extractLsb' 0 9) := by
  rw [decode, opcodeOf, h]; rfl

theorem decode_trap (h : w.extractLsb' 12 4 = 15#4) : decode w = decodeTrap (w.extractLsb' 0 8) := by
  rw [decode, opcodeOf, h]; rfl

/-- A TRAP word goes by its vector alone (R140). -/
theorem decode_trap_vector {v : BitVec 8} (h : w.extractLsb' 12 4 = 15#4) (hv : w.extractLsb' 0 8 = v) :
    decode w = decodeTrap v := by
  rw [decode_trap h, hv]

theorem decodeTrap_other {v : BitVec 8} (hv : isServiceVector v = false) : decodeTrap v = .trapOther v := by
  simp only [isServiceVector, Bool.or_eq_false_iff, beq_eq_false_iff_ne] at hv
  obtain ⟨⟨⟨⟨⟨hgetc, hout⟩, hputs⟩, hin⟩, hputsp⟩, hhalt⟩ := hv
  simp only [decodeTrap, hgetc, hout, hputs, hin, hputsp, hhalt, if_false]

/-- The six services and the row of all other vectors (R55). -/
theorem decodeTrap_cases (v : BitVec 8) :
    (v = Config.tvGetc ∨ v = Config.tvOut ∨ v = Config.tvPuts ∨ v = Config.tvIn ∨ v = Config.tvPutsp ∨ v = Config.tvHalt) ∨
      isServiceVector v = false := by
  cases hv : isServiceVector v
  · exact .inr rfl
  · simp only [isServiceVector, Bool.or_eq_true, beq_iff_eq, or_assoc] at hv
    exact .inl hv

theorem opcodeField_cases : ∀ k : BitVec 4, k = 0#4 ∨ k = 1#4 ∨ k = 2#4 ∨ k = 3#4 ∨ k = 4#4 ∨ k = 5#4 ∨ k = 6#4 ∨
    k = 7#4 ∨ k = 8#4 ∨ k = 9#4 ∨ k = 10#4 ∨ k = 11#4 ∨ k = 12#4 ∨ k = 13#4 ∨ k = 14#4 ∨ k = 15#4 := by decide

end Sys2Proof
end

section
/-! Words taken apart and put together again: the canonical words that have no format lemma of their own, and each format
over the fields of a word. -/

namespace Sys2Proof

/-! The canonical words of BR, JSR and NOT (R52, R62). -/

variable (n z p : Bool)

theorem encode_br_opcode (off : BitVec 9) : (encode (.br n z p off)).extractLsb' 12 4 = 0#4 := by
  apply BitVec.eq_of_getLsbD_eq
  intro i hi
  interval_cases i <;> simp only [encode, BitVec.getLsbD_append, BitVec.getLsbD_extractLsb'] <;> simp

theorem encode_br_requests (off : BitVec 9) : (encode (.br n z p off)).getLsbD 11 = n ∧
    (encode (.br n z p off)).getLsbD 10 = z ∧ (encode (.br n z p off)).getLsbD 9 = p := by
  simp only [encode, nzpBits, BitVec.getLsbD_append]
  simp

theorem encode_br_off (off : BitVec 9) : (encode (.br n z p off)).extractLsb' 0 9 = off := by
  apply BitVec.eq_of_getLsbD_eq
  intro i hi
  interval_cases i <;> simp only [encode, BitVec.getLsbD_append, BitVec.getLsbD_extractLsb'] <;> simp

theorem encode_jsr_opcode (off : BitVec 11) : (encode (.jsr off)).extractLsb' 12 4 = 4#4 := by
  apply BitVec.eq_of_getLsbD_eq
  intro i hi
  interval_cases i <;> simp only [encode, BitVec.getLsbD_append, BitVec.getLsbD_extractLsb'] <;> simp

theorem encode_jsr_bit11 (off : BitVec 11) : (encode (.jsr off)).getLsbD 11 = true := by
  simp only [encode, BitVec.getLsbD_append]
  simp

theorem encode_jsr_off (off : BitVec 11) : (encode (.jsr off)).extractLsb' 0 11 = off := by
  apply BitVec.eq_of_getLsbD_eq
  intro i hi
  interval_cases i <;> simp only [encode, BitVec.getLsbD_append, BitVec.getLsbD_extractLsb'] <;> simp

theorem encode_not_fields (dr sr : Reg) : (encode (.not dr sr)).extractLsb' 12 4 = 9#4 ∧
    (encode (.not dr sr)).extractLsb' 9 3 = regBits dr ∧ (encode (.not dr sr)).extractLsb' 6 3 = regBits sr := by
  cases dr <;> cases sr <;> decide

end Sys2Proof
end

section
/-! Decoding and the ignored bits (30_encoding.md R55, R56, R59, R62). Two facts carry the statements about the
encoding: a word decodes to every well-formed instruction whose canonical word it equals outside the ignored bits
(`decode_of_agrees`), and it equals the canonical word of what it decodes to outside them (`agreesWith_decode`). -/

namespace Sys2Proof

/-! What two words that agree outside a mask read as. -/

/-- The two words are equal outside the mask. -/
def AgreeOutside (m w e : Word) : Prop := w &&& ~~~m = e &&& ~~~m

/-- The word is the canonical word of the instruction but for the ignored bits (R56, R62). -/
def AgreesWith (i : Instr) (w : Word) : Prop := AgreeOutside (ignoredBits i) w (encode i)

variable {w e m : Word} {i : Instr}

theorem bit_of_agree (h : AgreeOutside m w e) (j : Nat) (hj : j < 16 := by decide)
    (hm : m.getLsbD j = false := by simp [ignoredBits]) : w.getLsbD j = e.getLsbD j := by
  have hbit := congrArg (fun v : Word => v.getLsbD j) h
  simpa only [BitVec.getLsbD_and, BitVec.getLsbD_not, hj, hm, decide_true, Bool.not_false, Bool.and_true] using hbit

theorem field_of_agree (h : AgreeOutside m w e) (p n : Nat) (hpn : p + n ≤ 16 := by decide)
    (hm : m.extractLsb' p n = 0#n := by simp [ignoredBits]) : w.extractLsb' p n = e.extractLsb' p n := by
  apply BitVec.eq_of_getLsbD_eq
  intro j hj
  have hbit := congrArg (fun v : BitVec n => v.getLsbD j) hm
  simp only [BitVec.getLsbD_extractLsb', hj, decide_true, Bool.true_and, BitVec.getLsbD_zero] at hbit ⊢
  exact bit_of_agree h (p + j) (by omega) hbit

theorem opcode_of_agrees (h : AgreesWith i w) {op : BitVec 4} (hop : (encode i).extractLsb' 12 4 = op) :
    w.extractLsb' 12 4 = op :=
  (field_of_agree h 12 4 (by decide) (by cases i <;> simp [ignoredBits])).trans hop

/-! The fields of the formats that several rows share. -/

theorem fields_of_formatRRR {op : BitVec 4} {dr sr1 sr2 : Reg}
    (h : AgreeOutside 0x0018#16 w (formatRRR op dr sr1 sr2)) :
    w.extractLsb' 12 4 = op ∧ w.getLsbD 5 = false ∧ regOfBits (w.extractLsb' 9 3) = dr ∧
      regOfBits (w.extractLsb' 6 3) = sr1 ∧ regOfBits (w.extractLsb' 0 3) = sr2 := by
  rw [field_of_agree h 12 4, bit_of_agree h 5, field_of_agree h 9 3, field_of_agree h 6 3, field_of_agree h 0 3]
  simp only [formatRRR_opcode, formatRRR_bit5, formatRRR_high, formatRRR_mid, formatRRR_low, regOfBits_regBits, and_self]

theorem fields_of_formatRRI {op : BitVec 4} {dr sr1 : Reg} {imm : BitVec 5}
    (h : AgreeOutside 0#16 w (formatRRI op dr sr1 imm)) :
    w.extractLsb' 12 4 = op ∧ w.getLsbD 5 = true ∧ regOfBits (w.extractLsb' 9 3) = dr ∧
      regOfBits (w.extractLsb' 6 3) = sr1 ∧ w.extractLsb' 0 5 = imm := by
  rw [field_of_agree h 12 4, bit_of_agree h 5, field_of_agree h 9 3, field_of_agree h 6 3, field_of_agree h 0 5]
  simp only [formatRRI_opcode, formatRRI_bit5, formatRRI_high, formatRRI_mid, formatRRI_imm, regOfBits_regBits, and_self]

theorem fields_of_formatRP9 {op : BitVec 4} {r : Reg} {off : BitVec 9}
    (h : AgreeOutside 0#16 w (formatRP9 op r off)) :
    w.extractLsb' 12 4 = op ∧ regOfBits (w.extractLsb' 9 3) = r ∧ w.extractLsb' 0 9 = off := by
  rw [field_of_agree h 12 4, field_of_agree h 9 3, field_of_agree h 0 9]
  simp only [formatRP9_opcode, formatRP9_high, formatRP9_off, regOfBits_regBits, and_self]

theorem fields_of_formatRB6 {op : BitVec 4} {r base : Reg} {off : BitVec 6}
    (h : AgreeOutside 0#16 w (formatRB6 op r base off)) :
    w.extractLsb' 12 4 = op ∧ regOfBits (w.extractLsb' 9 3) = r ∧ regOfBits (w.extractLsb' 6 3) = base ∧
      w.extractLsb' 0 6 = off := by
  rw [field_of_agree h 12 4, field_of_agree h 9 3, field_of_agree h 6 3, field_of_agree h 0 6]
  simp only [formatRB6_opcode, formatRB6_high, formatRB6_mid, formatRB6_off, regOfBits_regBits, and_self]

/-! A word that agrees with a canonical word decodes to its instruction. -/

theorem decode_of_agrees (hwf : wellFormed i = true) (h : AgreesWith i w) : decode w = i := by
  cases i with
  | br n z p off =>
    obtain ⟨hn, hz, hp⟩ := encode_br_requests n z p off
    rw [decode_br (opcode_of_agrees h (encode_br_opcode n z p off)), bit_of_agree h 11, bit_of_agree h 10,
      bit_of_agree h 9, field_of_agree h 0 9, hn, hz, hp, encode_br_off]
  | addReg dr sr1 sr2 =>
    obtain ⟨hop, h5, hdr, hsr1, hsr2⟩ := fields_of_formatRRR h
    rw [decode_addReg hop h5, hdr, hsr1, hsr2]
  | addImm dr sr1 imm =>
    obtain ⟨hop, h5, hdr, hsr1, himm⟩ := fields_of_formatRRI h
    rw [decode_addImm hop h5, hdr, hsr1, himm]
  | andReg dr sr1 sr2 =>
    obtain ⟨hop, h5, hdr, hsr1, hsr2⟩ := fields_of_formatRRR h
    rw [decode_andReg hop h5, hdr, hsr1, hsr2]
  | andImm dr sr1 imm =>
    obtain ⟨hop, h5, hdr, hsr1, himm⟩ := fields_of_formatRRI h
    rw [decode_andImm hop h5, hdr, hsr1, himm]
  | ld r off =>
    obtain ⟨hop, hr, hoff⟩ := fields_of_formatRP9 h
    rw [decode_ld hop, hr, hoff]
  | st r off =>
    obtain ⟨hop, hr, hoff⟩ := fields_of_formatRP9 h
    rw [decode_st hop, hr, hoff]
  | ldi r off =>
    obtain ⟨hop, hr, hoff⟩ := fields_of_formatRP9 h
    rw [decode_ldi hop, hr, hoff]
  | sti r off =>
    obtain ⟨hop, hr, hoff⟩ := fields_of_formatRP9 h
    rw [decode_sti hop, hr, hoff]
  | lea r off =>
    obtain ⟨hop, hr, hoff⟩ := fields_of_formatRP9 h
    rw [decode_lea hop, hr, hoff]
  | ldr r base off =>
    obtain ⟨hop, hr, hbase, hoff⟩ := fields_of_formatRB6 h
    rw [decode_ldr hop, hr, hbase, hoff]
  | str r base off =>
    obtain ⟨hop, hr, hbase, hoff⟩ := fields_of_formatRB6 h
    rw [decode_str hop, hr, hbase, hoff]
  | jsr off =>
    rw [decode_jsr (opcode_of_agrees h (encode_jsr_opcode off)) ((bit_of_agree h 11).trans (encode_jsr_bit11 off)),
      field_of_agree h 0 11, encode_jsr_off]
  | jsrr base =>
    rw [decode_jsrr (opcode_of_agrees h (formatJR_opcode _ base)) ((bit_of_agree h 11).trans (formatJR_bit11 _ base)),
      field_of_agree h 6 3]
    simp [encode, formatJR_mid]
  | jmp base =>
    rw [decode_jmp (opcode_of_agrees h (formatJR_opcode _ base)), field_of_agree h 6 3]
    simp [encode, formatJR_mid]
  | not dr sr =>
    obtain ⟨hcode, hdr, hsr⟩ := encode_not_fields dr sr
    rw [decode_not (opcode_of_agrees h hcode), field_of_agree h 9 3, field_of_agree h 6 3, hdr, hsr,
      regOfBits_regBits, regOfBits_regBits]
  | rti => exact decode_rti (opcode_of_agrees h rfl)
  | res => exact decode_res (opcode_of_agrees h rfl)
  | trapGetc | trapOut | trapPuts | trapIn | trapPutsp | trapHalt =>
    exact decode_trap_vector (opcode_of_agrees h (formatTV_opcode _)) ((field_of_agree h 0 8).trans (formatTV_vect _))
  | trapOther v =>
    have hv : isServiceVector v = false := by simpa [wellFormed] using hwf
    rw [decode_trap_vector (opcode_of_agrees h (formatTV_opcode v)) ((field_of_agree h 0 8).trans (formatTV_vect v)),
      decodeTrap_other hv]

/-- Settles O53: a canonical word agrees with itself. -/
theorem decodeInvertsEncode : Obligations.DecodeInvertsEncode := fun _ hwf => decode_of_agrees hwf rfl

end Sys2Proof
end

section
/-! Encoding what a word decodes to (30_encoding.md R56, R62), and the rows (R55, R59). -/

namespace Sys2Proof

variable (w : Word)

/-! Each format over a word's own fields: the word again, but for the ignored bits. -/

theorem formatBR_fields {op : BitVec 4} (h : w.extractLsb' 12 4 = op) :
    op ++ nzpBits (w.getLsbD 11) (w.getLsbD 10) (w.getLsbD 9) ++ w.extractLsb' 0 9 = w := by
  subst h
  apply BitVec.eq_of_getLsbD_eq
  intro i hi
  interval_cases i <;>
    simp only [nzpBits, BitVec.getLsbD_append, BitVec.getLsbD_extractLsb'] <;> simp

theorem formatRP9_fields {op : BitVec 4} (h : w.extractLsb' 12 4 = op) :
    formatRP9 op (regOfBits (w.extractLsb' 9 3)) (w.extractLsb' 0 9) = w := by
  subst h
  apply BitVec.eq_of_getLsbD_eq
  intro i hi
  interval_cases i <;>
    simp only [formatRP9, regBits_regOfBits, BitVec.getLsbD_append, BitVec.getLsbD_extractLsb'] <;> simp

theorem formatRB6_fields {op : BitVec 4} (h : w.extractLsb' 12 4 = op) :
    formatRB6 op (regOfBits (w.extractLsb' 9 3)) (regOfBits (w.extractLsb' 6 3)) (w.extractLsb' 0 6) = w := by
  subst h
  apply BitVec.eq_of_getLsbD_eq
  intro i hi
  interval_cases i <;>
    simp only [formatRB6, regBits_regOfBits, BitVec.getLsbD_append, BitVec.getLsbD_extractLsb'] <;> simp

theorem formatRRI_fields {op : BitVec 4} (h : w.extractLsb' 12 4 = op) (h5 : w.getLsbD 5 = true) :
    formatRRI op (regOfBits (w.extractLsb' 9 3)) (regOfBits (w.extractLsb' 6 3)) (w.extractLsb' 0 5) = w := by
  subst h
  apply BitVec.eq_of_getLsbD_eq
  intro i hi
  interval_cases i <;>
    simp only [formatRRI, regBits_regOfBits, BitVec.getLsbD_append, BitVec.getLsbD_extractLsb', h5] <;> simp

theorem formatRRR_fields {op : BitVec 4} (h : w.extractLsb' 12 4 = op) (h5 : w.getLsbD 5 = false) :
    formatRRR op (regOfBits (w.extractLsb' 9 3)) (regOfBits (w.extractLsb' 6 3))
      (regOfBits (w.extractLsb' 0 3)) = w &&& ~~~0x0018#16 := by
  subst h
  apply BitVec.eq_of_getLsbD_eq
  intro i hi
  interval_cases i <;>
    simp only [formatRRR, regBits_regOfBits, BitVec.getLsbD_append, BitVec.getLsbD_extractLsb', BitVec.getLsbD_and, h5] <;>
    simp

theorem formatJSR_fields (h : w.extractLsb' 12 4 = 4#4) (h11 : w.getLsbD 11 = true) :
    0b01001#5 ++ w.extractLsb' 0 11 = w := by
  have hop : 0b01001#5 = w.extractLsb' 12 4 ++ 0b1#1 := by rw [h]; rfl
  rw [hop]
  apply BitVec.eq_of_getLsbD_eq
  intro i hi
  interval_cases i <;>
    simp only [BitVec.getLsbD_append, BitVec.getLsbD_extractLsb', h11] <;> simp

theorem formatJR_fields {op : BitVec 4} (h : w.extractLsb' 12 4 = op) :
    formatJR op (regOfBits (w.extractLsb' 6 3)) = w &&& ~~~0x0E3F#16 := by
  subst h
  apply BitVec.eq_of_getLsbD_eq
  intro i hi
  interval_cases i <;>
    simp only [formatJR, regBits_regOfBits, BitVec.getLsbD_append, BitVec.getLsbD_extractLsb', BitVec.getLsbD_and] <;> simp

theorem formatJSRR_fields {op : BitVec 4} (h : w.extractLsb' 12 4 = op) (h11 : w.getLsbD 11 = false) :
    formatJR op (regOfBits (w.extractLsb' 6 3)) = w &&& ~~~0x063F#16 := by
  rw [formatJR_fields w h]
  apply BitVec.eq_of_getLsbD_eq
  intro i hi
  interval_cases i <;> simp only [BitVec.getLsbD_and, h11] <;> simp

theorem formatNOT_fields {op : BitVec 4} (h : w.extractLsb' 12 4 = op) :
    op ++ regBits (regOfBits (w.extractLsb' 9 3)) ++ regBits (regOfBits (w.extractLsb' 6 3)) ++
      0b111111#6 = w ||| 0x003F#16 := by
  subst h
  apply BitVec.eq_of_getLsbD_eq
  intro i hi
  interval_cases i <;>
    simp only [regBits_regOfBits, BitVec.getLsbD_append, BitVec.getLsbD_extractLsb', BitVec.getLsbD_or] <;> simp

theorem opcodeAlone_fields {op : BitVec 4} (h : w.extractLsb' 12 4 = op) : op ++ 0#12 = w &&& ~~~0x0FFF#16 := by
  subst h
  apply BitVec.eq_of_getLsbD_eq
  intro i hi
  interval_cases i <;> simp only [BitVec.getLsbD_append, BitVec.getLsbD_extractLsb', BitVec.getLsbD_and] <;> simp

theorem formatTV_fields (h : w.extractLsb' 12 4 = 0b1111#4) :
    formatTV (w.extractLsb' 0 8) = w &&& ~~~0x0F00#16 := by
  rw [formatTV, ← h]
  apply BitVec.eq_of_getLsbD_eq
  intro i hi
  interval_cases i <;> simp only [BitVec.getLsbD_append, BitVec.getLsbD_extractLsb', BitVec.getLsbD_and] <;> simp

/-! The rows of TRAP share a format and its ignored bits. -/

theorem encode_decodeTrap (v : BitVec 8) : encode (decodeTrap v) = formatTV v := by
  rcases decodeTrap_cases v with (rfl | rfl | rfl | rfl | rfl | rfl) | hv
  case inr => rw [decodeTrap_other hv]; rfl
  all_goals rfl

theorem ignoredBits_decodeTrap (v : BitVec 8) : ignoredBits (decodeTrap v) = 0x0F00#16 := by
  rcases decodeTrap_cases v with (rfl | rfl | rfl | rfl | rfl | rfl) | hv
  case inr => rw [decodeTrap_other hv]; rfl
  all_goals rfl

theorem wellFormed_decodeTrap (v : BitVec 8) : wellFormed (decodeTrap v) = true := by
  rcases decodeTrap_cases v with (rfl | rfl | rfl | rfl | rfl | rfl) | hv
  case inr => rw [decodeTrap_other hv, wellFormed, hv]; rfl
  all_goals rfl

/-! What a word decodes to, encoded again. -/

theorem agreeOutside_of_eq {e m : Word} (h : e = w) : AgreeOutside m w e := by rw [AgreeOutside, h]

theorem agreeOutside_of_cleared {e m : Word} (h : e = w &&& ~~~m) : AgreeOutside m w e := by
  rw [AgreeOutside, h, BitVec.and_assoc, BitVec.and_self]

theorem agreeOutside_of_set {e m : Word} (h : e = w ||| m) : AgreeOutside m w e := by
  apply BitVec.eq_of_getLsbD_eq
  intro i hi
  simp only [h, BitVec.getLsbD_and, BitVec.getLsbD_or, BitVec.getLsbD_not, hi]
  cases m.getLsbD i <;> simp

/-- A word is the canonical word of its instruction outside the ignored bits, row by row. -/
theorem agreesWith_decode : AgreesWith (decode w) w := by
  rcases opcodeField_cases (w.extractLsb' 12 4) with h | h | h | h | h | h | h | h | h | h | h | h | h | h | h | h
  · rw [decode_br h]
    exact agreeOutside_of_eq w (formatBR_fields w h)
  · cases h5 : w.getLsbD 5
    · rw [decode_addReg h h5]
      exact agreeOutside_of_cleared w (formatRRR_fields w h h5)
    · rw [decode_addImm h h5]
      exact agreeOutside_of_eq w (formatRRI_fields w h h5)
  · rw [decode_ld h]
    exact agreeOutside_of_eq w (formatRP9_fields w h)
  · rw [decode_st h]
    exact agreeOutside_of_eq w (formatRP9_fields w h)
  · cases h11 : w.getLsbD 11
    · rw [decode_jsrr h h11]
      exact agreeOutside_of_cleared w (formatJSRR_fields w h h11)
    · rw [decode_jsr h h11]
      exact agreeOutside_of_eq w (formatJSR_fields w h h11)
  · cases h5 : w.getLsbD 5
    · rw [decode_andReg h h5]
      exact agreeOutside_of_cleared w (formatRRR_fields w h h5)
    · rw [decode_andImm h h5]
      exact agreeOutside_of_eq w (formatRRI_fields w h h5)
  · rw [decode_ldr h]
    exact agreeOutside_of_eq w (formatRB6_fields w h)
  · rw [decode_str h]
    exact agreeOutside_of_eq w (formatRB6_fields w h)
  · rw [decode_rti h]
    exact agreeOutside_of_cleared w (opcodeAlone_fields w h)
  · rw [decode_not h]
    exact agreeOutside_of_set w (formatNOT_fields w h)
  · rw [decode_ldi h]
    exact agreeOutside_of_eq w (formatRP9_fields w h)
  · rw [decode_sti h]
    exact agreeOutside_of_eq w (formatRP9_fields w h)
  · rw [decode_jmp h]
    exact agreeOutside_of_cleared w (formatJR_fields w h)
  · rw [decode_res h]
    exact agreeOutside_of_cleared w (opcodeAlone_fields w h)
  · rw [decode_lea h]
    exact agreeOutside_of_eq w (formatRP9_fields w h)
  · rw [decode_trap h, AgreesWith, encode_decodeTrap, ignoredBits_decodeTrap]
    exact agreeOutside_of_cleared w (formatTV_fields w h)

theorem wellFormed_decode : wellFormed (decode w) = true := by
  cases hop : opcodeOf w with
  | trap => simp only [decode, hop, wellFormed_decodeTrap]
  | add | and | jsr =>
    simp only [decode, hop]
    split <;> rfl
  | _ => simp only [decode, hop, wellFormed]

/-- Changing bits under a mask leaves the others. -/
theorem agreeOutside_xor (x m : Word) : AgreeOutside m (w ^^^ (x &&& m)) w := by
  apply BitVec.eq_of_getLsbD_eq
  intro i hi
  simp only [BitVec.getLsbD_and, BitVec.getLsbD_xor, BitVec.getLsbD_not, hi]
  cases m.getLsbD i <;> simp

/-- Settles O55, from `decode_of_agrees` and `agreesWith_decode`. -/
theorem ignoredBitsAreNotDecoded : Obligations.IgnoredBitsAreNotDecoded := by
  refine ⟨fun w x => ?_, fun w => (agreesWith_decode w).symm, fun w i hwf hw => ?_⟩
  · exact decode_of_agrees (wellFormed_decode w) ((agreeOutside_xor w x _).trans (agreesWith_decode w))
  · rw [hw, decode_of_agrees hwf rfl]

/-- Settles O56. -/
theorem specWordsDecode : Obligations.SpecWordsDecode := by
  unfold Obligations.SpecWordsDecode
  decide

/-! The rows. -/

/-- The canonical word carries its row's selecting bits: the lemmas of `Laws.EncodeMatchesRow`, gathered. -/
theorem encode_row (i : Instr) (hwf : wellFormed i = true) : encode i &&& rowMask i = rowMatch i :=
  match i with
  | .br n z p off => Laws.EncodeMatchesRow.br n z p off hwf
  | .addReg dr sr1 sr2 => Laws.EncodeMatchesRow.addReg dr sr1 sr2 hwf
  | .addImm dr sr1 imm => Laws.EncodeMatchesRow.addImm dr sr1 imm hwf
  | .ld dr off => Laws.EncodeMatchesRow.ld dr off hwf
  | .st sr off => Laws.EncodeMatchesRow.st sr off hwf
  | .jsr off => Laws.EncodeMatchesRow.jsr off hwf
  | .jsrr base => Laws.EncodeMatchesRow.jsrr base hwf
  | .andReg dr sr1 sr2 => Laws.EncodeMatchesRow.andReg dr sr1 sr2 hwf
  | .andImm dr sr1 imm => Laws.EncodeMatchesRow.andImm dr sr1 imm hwf
  | .ldr dr base off => Laws.EncodeMatchesRow.ldr dr base off hwf
  | .str sr base off => Laws.EncodeMatchesRow.str sr base off hwf
  | .rti => Laws.EncodeMatchesRow.rti hwf
  | .not dr sr => Laws.EncodeMatchesRow.not dr sr hwf
  | .ldi dr off => Laws.EncodeMatchesRow.ldi dr off hwf
  | .sti sr off => Laws.EncodeMatchesRow.sti sr off hwf
  | .jmp base => Laws.EncodeMatchesRow.jmp base hwf
  | .res => Laws.EncodeMatchesRow.res hwf
  | .lea dr off => Laws.EncodeMatchesRow.lea dr off hwf
  | .trapGetc => Laws.EncodeMatchesRow.trapGetc hwf
  | .trapOut => Laws.EncodeMatchesRow.trapOut hwf
  | .trapPuts => Laws.EncodeMatchesRow.trapPuts hwf
  | .trapIn => Laws.EncodeMatchesRow.trapIn hwf
  | .trapPutsp => Laws.EncodeMatchesRow.trapPutsp hwf
  | .trapHalt => Laws.EncodeMatchesRow.trapHalt hwf
  | .trapOther v => Laws.EncodeMatchesRow.trapOther v hwf

/-- No ignored bit selects a row. -/
theorem not_ignoredBits_and_rowMask (i : Instr) : ~~~ignoredBits i &&& rowMask i = rowMask i := by
  cases i <;> simp only [ignoredBits, rowMask] <;> decide

/-- A word that agrees with a canonical word outside the ignored bits carries the same selecting bits. -/
theorem row_of_agrees {i : Instr} (hwf : wellFormed i = true) (h : AgreesWith i w) : w &&& rowMask i = rowMatch i :=
  calc w &&& rowMask i
    _ = w &&& ~~~ignoredBits i &&& rowMask i := by rw [BitVec.and_assoc, not_ignoredBits_and_rowMask]
    _ = encode i &&& ~~~ignoredBits i &&& rowMask i := congrArg (· &&& rowMask i) h
    _ = encode i &&& rowMask i := by rw [BitVec.and_assoc, not_ignoredBits_and_rowMask]
    _ = rowMatch i := encode_row i hwf

theorem decode_row : w &&& rowMask (decode w) = rowMatch (decode w) :=
  row_of_agrees w (wellFormed_decode w) (agreesWith_decode w)

variable {w} {i : Instr}

theorem bit_of_row (h : w &&& rowMask i = rowMatch i) (j : Nat) {b : Bool}
    (hm : (rowMask i).getLsbD j = true := by simp [rowMask]) (hb : (rowMatch i).getLsbD j = b := by simp [rowMatch]) :
    w.getLsbD j = b := by
  have hbit := congrArg (fun v : Word => v.getLsbD j) h
  simpa only [BitVec.getLsbD_and, hm, hb, Bool.and_true] using hbit

theorem field_of_row (h : w &&& rowMask i = rowMatch i) (p n : Nat) {v : BitVec n}
    (hm : (rowMask i).extractLsb' p n = BitVec.allOnes n := by simp [rowMask])
    (hv : (rowMatch i).extractLsb' p n = v := by simp [rowMatch]) : w.extractLsb' p n = v := by
  rw [← hv, ← h, BitVec.extractLsb'_and, hm, BitVec.and_allOnes]

/-- A word that carries the selecting bits of a row decodes to an instruction of that row. -/
theorem row_of_match (h : w &&& rowMask i = rowMatch i)
    (hother : ∀ v, i = .trapOther v → isServiceVector (w.extractLsb' 0 8) = false) :
    rowMask i = rowMask (decode w) ∧ rowMatch i = rowMatch (decode w) := by
  cases i with
  | br => rw [decode_br (field_of_row h 12 4)]; exact ⟨rfl, rfl⟩
  | addReg => rw [decode_addReg (field_of_row h 12 4) (bit_of_row h 5)]; exact ⟨rfl, rfl⟩
  | addImm => rw [decode_addImm (field_of_row h 12 4) (bit_of_row h 5)]; exact ⟨rfl, rfl⟩
  | ld => rw [decode_ld (field_of_row h 12 4)]; exact ⟨rfl, rfl⟩
  | st => rw [decode_st (field_of_row h 12 4)]; exact ⟨rfl, rfl⟩
  | jsr => rw [decode_jsr (field_of_row h 12 4) (bit_of_row h 11)]; exact ⟨rfl, rfl⟩
  | jsrr => rw [decode_jsrr (field_of_row h 12 4) (bit_of_row h 11)]; exact ⟨rfl, rfl⟩
  | andReg => rw [decode_andReg (field_of_row h 12 4) (bit_of_row h 5)]; exact ⟨rfl, rfl⟩
  | andImm => rw [decode_andImm (field_of_row h 12 4) (bit_of_row h 5)]; exact ⟨rfl, rfl⟩
  | ldr => rw [decode_ldr (field_of_row h 12 4)]; exact ⟨rfl, rfl⟩
  | str => rw [decode_str (field_of_row h 12 4)]; exact ⟨rfl, rfl⟩
  | rti => rw [decode_rti (field_of_row h 12 4)]; exact ⟨rfl, rfl⟩
  | not => rw [decode_not (field_of_row h 12 4)]; exact ⟨rfl, rfl⟩
  | ldi => rw [decode_ldi (field_of_row h 12 4)]; exact ⟨rfl, rfl⟩
  | sti => rw [decode_sti (field_of_row h 12 4)]; exact ⟨rfl, rfl⟩
  | jmp => rw [decode_jmp (field_of_row h 12 4)]; exact ⟨rfl, rfl⟩
  | res => rw [decode_res (field_of_row h 12 4)]; exact ⟨rfl, rfl⟩
  | lea => rw [decode_lea (field_of_row h 12 4)]; exact ⟨rfl, rfl⟩
  | trapGetc => rw [decode_trap_vector (v := 0x20#8) (field_of_row h 12 4) (field_of_row h 0 8)]; exact ⟨rfl, rfl⟩
  | trapOut => rw [decode_trap_vector (v := 0x21#8) (field_of_row h 12 4) (field_of_row h 0 8)]; exact ⟨rfl, rfl⟩
  | trapPuts => rw [decode_trap_vector (v := 0x22#8) (field_of_row h 12 4) (field_of_row h 0 8)]; exact ⟨rfl, rfl⟩
  | trapIn => rw [decode_trap_vector (v := 0x23#8) (field_of_row h 12 4) (field_of_row h 0 8)]; exact ⟨rfl, rfl⟩
  | trapPutsp => rw [decode_trap_vector (v := 0x24#8) (field_of_row h 12 4) (field_of_row h 0 8)]; exact ⟨rfl, rfl⟩
  | trapHalt => rw [decode_trap_vector (v := 0x25#8) (field_of_row h 12 4) (field_of_row h 0 8)]; exact ⟨rfl, rfl⟩
  | trapOther v =>
    rw [decode_trap (field_of_row h 12 4), decodeTrap_other (hother v rfl)]
    exact ⟨rfl, rfl⟩

/-- Settles O54. -/
theorem everyWordMatchesExactlyOneRow : Obligations.EveryWordMatchesExactlyOneRow := fun w =>
  ⟨wellFormed_decode w, decode_row w, fun _ _ h hother => row_of_match h hother⟩

end Sys2Proof
end

section
/-! Operands over the integers: signed fields (40_instruction_cycle.md R89), wrapping sums (10_state.md R13) and the checked
address (20_memory.md R36). -/

namespace Sys2Proof.Machine

theorem sext16_eq_ofInt {n : Nat} (field : BitVec n) : sext16 field = BitVec.ofInt 16 field.toInt := rfl

theorem add_eq_ofNat (a b : Word) : a + b = BitVec.ofNat 16 (a.toNat + b.toNat) := by
  rw [BitVec.ofNat_add, BitVec.ofNat_toNat, BitVec.ofNat_toNat, BitVec.setWidth_eq, BitVec.setWidth_eq]

/-- Adding a sign-extended field is the integer sum modulo 65536. -/
theorem add_sext16 {n : Nat} (a : Word) (field : BitVec n) :
    a + sext16 field = BitVec.ofInt 16 (a.toNat + field.toInt) := by
  rw [BitVec.ofInt_add, sext16_eq_ofInt, BitVec.ofInt_natCast, BitVec.ofNat_toNat, BitVec.setWidth_eq]

theorem pcRelative_eq_ofInt {n : Nat} (pc : Word) (field : BitVec n) :
    pcRelative pc field = BitVec.ofInt 16 (pc.toNat + field.toInt) := add_sext16 pc field

/-- The bits of a signed field as a word: its own, then copies of its top bit. -/
theorem sext16_getLsbD {n : Nat} (field : BitVec n) (i : Nat) (hi : i < 16) :
    (sext16 field).getLsbD i = if i < n then field.getLsbD i else field.msb := by
  rw [sext16, BitVec.getLsbD_signExtend, decide_eq_true hi, Bool.true_and]

theorem not_eq_ofNat (a : Word) : ~~~a = BitVec.ofNat 16 (65535 - a.toNat) := by
  have ha := a.isLt
  apply BitVec.eq_of_toNat_eq
  rw [BitVec.toNat_not, BitVec.toNat_ofNat, Nat.mod_eq_of_lt (by omega)]

/-- Settles O14: the top bit is the sign, and sign extension keeps the integer. -/
theorem signExtensionOfFields : Obligations.SignExtensionOfFields := by
  intro n field hpos hlt
  have hmsb : field.getLsbD (n - 1) = field.msb := (BitVec.msb_eq_getLsbD_last field).symm
  rw [hmsb]
  refine ⟨fun h => ?_, fun h => ?_, fun i hi => ?_, fun i hn hi => ?_, ?_⟩
  · simp [sextInt, BitVec.toInt_eq_msb_cond, h]
  · simp [sextInt, BitVec.toInt_eq_msb_cond, h]
  · rw [sext16_getLsbD field i (by omega), if_pos hi]
  · rw [sext16_getLsbD field i hi, if_neg (by omega)]
  · exact BitVec.toInt_signExtend_of_le (by omega)

/-- Settles O13, by what `effectiveAddress` can answer. -/
theorem effectiveAddressChecksTheSum : Obligations.EffectiveAddressChecksTheSum := by
  intro b o
  refine ⟨fun p hin => ?_, fun hout => ⟨?_, ?_⟩⟩
  · rcases effectiveAddress_cases p b o with ⟨h, -⟩ | ⟨-, -, hno⟩
    · refine ⟨_, h, ?_⟩
      rw [BitVec.toNat_ofInt]
      omega
    · exact absurd hin hno
  · rcases effectiveAddress_cases .fault b o with ⟨-, hin | hwrap⟩ | ⟨h, -⟩
    · exact absurd hin hout
    · cases hwrap
    · exact h
  · rcases effectiveAddress_cases .wrap b o with ⟨h, -⟩ | ⟨-, hfault, -⟩
    · refine ⟨_, h, ?_⟩
      rw [BitVec.toNat_ofInt]
      omega
    · cases hfault

end Sys2Proof.Machine
end

section
/-! ALU, loads and stores (41_alu.md, 42_load_store.md): what the families' operations do, and then each instruction. -/

namespace Sys2Proof.Machine

variable (s : State)

/-! The operations of the families. -/

theorem writesResult_writeDest (dr : Reg) (v : Word) : WritesResult dr v s (writeDest dr v s) := by
  refine ⟨getReg_writeDest_self s dr v, ccOfResult_ccOf v, fun r hr => getReg_writeDest_ne s v ?_, rfl, fun _ => rfl,
    ⟨rfl, rfl, rfl, rfl⟩, ⟨rfl, rfl, rfl, rfl, rfl, rfl⟩, ⟨rfl, rfl⟩, rfl⟩
  rintro rfl
  exact hr List.mem_cons_self

theorem storesWord_storeWord (a v : Word) : StoresWord a v s (storeWord a v s) :=
  ⟨fun hm => ⟨readWord_writeWord_self a v hm, writeWord_wf a v hm⟩, fun _ hh hl => readByte_writeWord_ne hh hl v s.mem,
    fun _ _ => rfl, rfl, rfl, ⟨rfl, rfl, rfl, rfl⟩, ⟨rfl, rfl, rfl, rfl, rfl, rfl⟩, ⟨rfl, rfl⟩, rfl⟩

theorem faultsWith_raiseMemoryFault (i : Int) : FaultsWith i s (raiseMemoryFault i s) := rfl

variable {s}

theorem withAddress_of_address {b : Word} {o : Int} {ea : Word} (h : effectiveAddress s.eaPolicy b o = .address ea)
    (handler : Word → State) : withAddress b o s handler = .next (handler ea) := by
  rw [withAddress, h]
  rfl

theorem withAddress_of_outOfRange {b : Word} {o : Int} {i : Int}
    (h : effectiveAddress s.eaPolicy b o = .outOfRange i) (handler : Word → State) :
    withAddress b o s handler = .next (raiseMemoryFault i s) := by
  rw [withAddress, h]
  rfl

/-- A load or store that does `P` at every address does it at the checked address, or faults with nothing else changed. -/
theorem withAddress_spec {P : Word → State → Prop} (b : Word) (o : Int) {handler : Word → State}
    (hP : ∀ ea, P ea (handler ea)) :
    (∀ ea, effectiveAddress s.eaPolicy b o = .address ea → ∃ t, withAddress b o s handler = .next t ∧ P ea t) ∧
    (∀ i, effectiveAddress s.eaPolicy b o = .outOfRange i →
      ∃ t, withAddress b o s handler = .next t ∧ FaultsWith i s t) :=
  ⟨fun ea h => ⟨_, withAddress_of_address h handler, hP ea⟩,
    fun i h => ⟨_, withAddress_of_outOfRange h handler, faultsWith_raiseMemoryFault s i⟩⟩

/-! The ALU. -/

/-- Settles O1. -/
theorem addRegisterForm : Obligations.AddRegisterForm := by
  refine ⟨fun w => decode_addReg, fun dr sr1 sr2 s => ⟨_, rfl, ?_⟩⟩
  rw [← add_eq_ofNat]
  exact writesResult_writeDest s dr _

/-- Settles O2. -/
theorem addImmediateForm : Obligations.AddImmediateForm := by
  refine ⟨fun w => decode_addImm, fun dr sr1 imm s => ⟨_, rfl, ?_⟩⟩
  rw [← add_sext16]
  exact writesResult_writeDest s dr _

/-- Settles O3. -/
theorem andRegisterForm : Obligations.AndRegisterForm :=
  ⟨fun _ => decode_andReg, fun dr _ _ s =>
    ⟨_, _, rfl, fun _ _ => BitVec.getLsbD_and, writesResult_writeDest s dr _⟩⟩

/-- Settles O4: the immediate's bits are `sext16_getLsbD`, the top one of five being bit 4. -/
theorem andImmediateForm : Obligations.AndImmediateForm := by
  refine ⟨fun w => decode_andImm, fun dr sr1 imm s => ⟨_, _, rfl, fun i hi => ?_, writesResult_writeDest s dr _⟩⟩
  rw [BitVec.getLsbD_and, sext16_getLsbD imm i hi, BitVec.msb_eq_getLsbD_last]

/-- Settles O5. -/
theorem notComplements : Obligations.NotComplements := by
  refine ⟨fun w => decode_not, fun dr sr s => ⟨_, rfl, ?_⟩⟩
  rw [← not_eq_ofNat]
  exact writesResult_writeDest s dr _

/-! Loads, LEA, stores. -/

/-- Settles O6. -/
theorem ldLoadsPcRelative : Obligations.LdLoadsPcRelative :=
  ⟨fun _ => decode_ld, fun dr off s =>
    withAddress_spec (P := fun ea => WritesResult dr (readWord s.mem ea) s) s.pc (sextInt off)
      fun _ => writesResult_writeDest s dr _⟩

/-- Settles O7. -/
theorem ldiLoadsThroughPointer : Obligations.LdiLoadsThroughPointer :=
  ⟨fun _ => decode_ldi, fun dr off s =>
    withAddress_spec (P := fun ea => WritesResult dr (readWord s.mem (readWord s.mem ea)) s) s.pc (sextInt off)
      fun _ => writesResult_writeDest s dr _⟩

/-- Settles O8. -/
theorem ldrLoadsBasePlusOffset : Obligations.LdrLoadsBasePlusOffset :=
  ⟨fun _ => decode_ldr, fun dr base off s =>
    withAddress_spec (P := fun ea => WritesResult dr (readWord s.mem ea) s) (getReg base s) (sextInt off)
      fun _ => writesResult_writeDest s dr _⟩

/-- Settles O9. -/
theorem leaComputesAddress : Obligations.LeaComputesAddress := by
  refine ⟨fun w => decode_lea, fun dr off s => ⟨_, rfl, ?_⟩⟩
  rw [← pcRelative_eq_ofInt]
  exact writesResult_writeDest s dr _

/-- Settles O10. -/
theorem stStoresPcRelative : Obligations.StStoresPcRelative :=
  ⟨fun _ => decode_st, fun sr off s =>
    withAddress_spec (P := fun ea => StoresWord ea (getReg sr s) s) s.pc (sextInt off)
      fun ea => storesWord_storeWord s ea _⟩

/-- Settles O11. -/
theorem stiStoresThroughPointer : Obligations.StiStoresThroughPointer :=
  ⟨fun _ => decode_sti, fun sr off s =>
    withAddress_spec (P := fun ea => StoresWord (readWord s.mem ea) (getReg sr s) s) s.pc (sextInt off)
      fun ea => storesWord_storeWord s (readWord s.mem ea) _⟩

/-- Settles O12. -/
theorem strStoresBasePlusOffset : Obligations.StrStoresBasePlusOffset :=
  ⟨fun _ => decode_str, fun sr base off s =>
    withAddress_spec (P := fun ea => StoresWord ea (getReg sr s) s) (getReg base s) (sextInt off)
      fun ea => storesWord_storeWord s ea _⟩

/-! What a store leaves for a later fetch or load. -/

theorem exec_st_of_address {sr : Reg} {off : BitVec 9} {ea : Word}
    (h : effectiveAddress s.eaPolicy s.pc (sextInt off) = .address ea) :
    exec (.st sr off) s = .next (storeWord ea (getReg sr s) s) := withAddress_of_address h _

theorem exec_sti_of_address {sr : Reg} {off : BitVec 9} {ea : Word}
    (h : effectiveAddress s.eaPolicy s.pc (sextInt off) = .address ea) :
    exec (.sti sr off) s = .next (storeWord (readWord s.mem ea) (getReg sr s) s) := withAddress_of_address h _

theorem exec_str_of_address {sr base : Reg} {off : BitVec 6} {ea : Word}
    (h : effectiveAddress s.eaPolicy (getReg base s) (sextInt off) = .address ea) :
    exec (.str sr base off) s = .next (storeWord ea (getReg sr s) s) := withAddress_of_address h _

theorem readWord_storeWord_self (hm : memWf s.mem = true) (a v : Word) : readWord (storeWord a v s).mem a = v :=
  readWord_writeWord_self a v hm

/-- Settles O16. -/
theorem storeIsSeenByTheNextFetch : Obligations.StoreIsSeenByTheNextFetch := by
  intro s t sr base off9 off6 ea hm
  refine ⟨fun hea hexec => ?_, fun hea hexec => ?_, fun hea hexec => ?_⟩
  · rw [exec_st_of_address hea] at hexec
    cases hexec
    exact ⟨readWord_storeWord_self hm ea _, rfl⟩
  · rw [exec_sti_of_address hea] at hexec
    cases hexec
    exact ⟨readWord_storeWord_self hm (readWord s.mem ea) _, rfl⟩
  · rw [exec_str_of_address hea] at hexec
    cases hexec
    exact ⟨readWord_storeWord_self hm ea _, rfl⟩

end Sys2Proof.Machine
end

section
/-! Control transfers (43_control.md). -/

namespace Sys2Proof.Machine

/-- BR's test, a request bit and a `cond` bit at a time (R130). -/
theorem branchTaken_iff : ∀ (n z p : Bool) (c : BitVec 3), branchTaken n z p c = true ↔
    (n = true ∧ c.getLsbD 2 = true) ∨ (z = true ∧ c.getLsbD 1 = true) ∨ (p = true ∧ c.getLsbD 0 = true) := by decide

theorem exec_br_eq (n z p : Bool) (off : BitVec 9) (s : State) : exec (.br n z p off) s =
    .next { s with pc := if branchTaken n z p s.cond = true then BitVec.ofInt 16 (s.pc.toNat + off.toInt) else s.pc } := by
  rw [← pcRelative_eq_ofInt]
  simp only [exec, execBr, complete_eq, interpret_none]
  split <;> rfl

theorem exec_br_of_taken {n z p : Bool} (off : BitVec 9) {s : State} (h : branchTaken n z p s.cond = true) :
    exec (.br n z p off) s = .next { s with pc := BitVec.ofInt 16 (s.pc.toNat + off.toInt) } := by
  rw [exec_br_eq, if_pos h]

theorem exec_br_of_not_taken {n z p : Bool} (off : BitVec 9) {s : State} (h : branchTaken n z p s.cond = false) :
    exec (.br n z p off) s = .next s := by
  rw [exec_br_eq, if_neg (Bool.eq_false_iff.mp h)]

/-- Each of the three states of `cond` answers to one request bit (R130, D2). -/
theorem branchTaken_flags (n z p : Bool) : branchTaken n z p Config.flN = n ∧ branchTaken n z p Config.flZ = z ∧
    branchTaken n z p Config.flP = p := by
  cases n <;> cases z <;> cases p <;> decide

/-- Settles O17. -/
theorem brBranchesOnRequestedFlags : Obligations.BrBranchesOnRequestedFlags := by
  refine ⟨fun w => decode_br, fun n z p off s => ?_, fun n z p off s => ⟨fun htaken => ?_, fun hnot => ?_⟩, rfl, rfl, rfl⟩
  · simp only [exec_br_eq, branchTaken_iff]
  all_goals obtain ⟨hN, hZ, hP⟩ := branchTaken_flags n z p
  · refine exec_br_of_taken off ?_
    rcases htaken with ⟨h, hc⟩ | ⟨h, hc⟩ | ⟨h, hc⟩ <;> rw [hc]
    · exact hN.trans h
    · exact hZ.trans h
    · exact hP.trans h
  · refine exec_br_of_not_taken off ?_
    rcases hnot with ⟨h, hc⟩ | ⟨h, hc⟩ | ⟨h, hc⟩ <;> rw [hc]
    · exact hN.trans h
    · exact hZ.trans h
    · exact hP.trans h

/-- Settles O18. -/
theorem jmpJumpsToBase : Obligations.JmpJumpsToBase := ⟨fun _ => decode_jmp, exec_jmp⟩

theorem sameRegsBut_linkReturn (s : State) {named : List Reg} (h : .r7 ∈ named) : SameRegsBut named s (linkReturn s) :=
  fun _ hr => getReg_linkReturn_ne s fun hr7 => hr (hr7 ▸ h)

theorem quiet_call (a : Word) (s : State) : Quiet s (setPc a (linkReturn s)) :=
  ⟨⟨rfl, rfl, rfl, rfl⟩, ⟨rfl, rfl, rfl, rfl, rfl, rfl⟩, ⟨rfl, rfl⟩, rfl⟩

/-- Settles O19. -/
theorem jsrLinksAndJumps : Obligations.JsrLinksAndJumps :=
  ⟨fun _ => decode_jsr, fun off s => ⟨_, rfl, getReg_linkReturn_self s, pcRelative_eq_ofInt s.pc off,
    sameRegsBut_linkReturn s List.mem_cons_self, rfl, fun _ => rfl, quiet_call _ s⟩⟩

/-- Settles O20: the base is read in the state after the link. -/
theorem jsrrLinksThenReadsBase : Obligations.JsrrLinksThenReadsBase := by
  refine ⟨fun w => decode_jsrr, fun base s => ⟨_, rfl, getReg_linkReturn_self s, ?_,
    fun hbase => getReg_linkReturn_ne s hbase, sameRegsBut_linkReturn s List.mem_cons_self, rfl, fun _ => rfl, quiet_call _ s⟩⟩
  rintro rfl
  exact getReg_linkReturn_self s

end Sys2Proof.Machine
end

section
/-! TRAP services that end in one stroke, RTI and RES (44_system.md). -/

namespace Sys2Proof.Machine

variable {s : State}

/-- Every TRAP begins with the link; what a service does to the console, the status or the engine's position after it is no
part of `TrapCommon`. -/
theorem trapCommon_linkReturn (s : State) : TrapCommon [] s (linkReturn s) :=
  ⟨getReg_linkReturn_self s, sameRegsBut_linkReturn s List.mem_cons_self, rfl, rfl, fun _ => rfl, rfl, rfl, rfl, rfl, rfl, rfl⟩

/-- GETC and IN put the byte in R0. -/
theorem trapCommon_setReg_r0 {t : State} (h : TrapCommon [] s t) (v : Word) : TrapCommon [.r0] s (setReg .r0 v t) := by
  obtain ⟨hlink, hregs, hpc, hcond, hmem, hfixed⟩ := h
  refine ⟨(getReg_r7_setReg_r0 v t).trans hlink, fun r hr => ?_, hpc, hcond, hmem, hfixed⟩
  rw [List.mem_cons, List.mem_singleton, not_or] at hr
  obtain ⟨hr7, hr0⟩ := hr
  rw [getReg_setReg_ne t v hr0, hregs r (by simpa using hr7)]

theorem sameStatus_rfl (s : State) : SameStatus s s := ⟨rfl, rfl, rfl, rfl⟩

theorem toNat_zext (c : Byte) : (c.setWidth 16).toNat = c.toNat := by
  have := c.isLt
  rw [BitVec.toNat_setWidth, Nat.mod_eq_of_lt (by omega)]

theorem getcBody_of_cons {c : Byte} {rest : List Byte} (h : s.cin = c :: rest) :
    getcBody s = .next (setReg .r0 (c.setWidth 16) { s with cin := rest }) := by
  rw [getcBody, h]
  rfl

theorem inBody_of_cons {c : Byte} {rest : List Byte} (h : s.cin = c :: rest) :
    inBody s = .next (setReg .r0 (c.setWidth 16) (consoleOut [c] { s with cin := rest })) := by
  rw [inBody, h]
  rfl

theorem getcBody_of_nil (h : s.cin = []) : getcBody s = .next { s with phase := .holding .getc } := by
  rcases getcBody_cases s with ⟨-, hb⟩ | ⟨c, rest, hc, -⟩
  · exact hb
  · cases h.symm.trans hc

theorem inBody_of_nil (h : s.cin = []) : inBody s = .next { s with phase := .holding .inp } := by
  rcases inBody_cases s with ⟨-, hb⟩ | ⟨c, rest, hc, -⟩
  · exact hb
  · cases h.symm.trans hc

/-- Settles O21. -/
theorem getcReadsOneByte : Obligations.GetcReadsOneByte := by
  refine ⟨fun w h hv => decode_trap_vector h hv, fun s c rest hcin => ⟨_, getcBody_of_cons (s := linkReturn s) hcin, ?_⟩⟩
  exact ⟨(congrArg BitVec.toNat (getReg_setReg_self _ _ _)).trans (toNat_zext c), rfl, rfl,
    trapCommon_setReg_r0 (trapCommon_linkReturn s) _, sameStatus_rfl s, rfl⟩

/-- Settles O24. -/
theorem inPromptsReadsAndEchoes : Obligations.InPromptsReadsAndEchoes := by
  refine ⟨fun w h hv => decode_trap_vector h hv, fun s c rest hcin =>
    ⟨_, inBody_of_cons (s := consoleOut Config.inPrompt (linkReturn s)) hcin, ?_⟩⟩
  exact ⟨(congrArg BitVec.toNat (getReg_setReg_self _ _ _)).trans (toNat_zext c), rfl, rfl,
    trapCommon_setReg_r0 (trapCommon_linkReturn s) _, sameStatus_rfl s, rfl⟩

/-- Settles O30. -/
theorem getcAndInHoldOnEmptyInput : Obligations.GetcAndInHoldOnEmptyInput := fun s hcin =>
  ⟨⟨_, getcBody_of_nil (s := linkReturn s) hcin, rfl, ⟨rfl, rfl⟩, trapCommon_linkReturn s, sameStatus_rfl s⟩,
    ⟨_, inBody_of_nil (s := consoleOut Config.inPrompt (linkReturn s)) hcin, rfl, hcin, rfl, trapCommon_linkReturn s,
      sameStatus_rfl s⟩⟩

theorem lowByte_eq_ofNat (w : Word) : w.extractLsb' 0 8 = BitVec.ofNat 8 (w.toNat % 256) := by
  apply BitVec.eq_of_toNat_eq
  simp [BitVec.extractLsb'_toNat]

/-- Settles O22: R0 is not the link register. -/
theorem outWritesLowByte : Obligations.OutWritesLowByte := by
  refine ⟨fun w h hv => decode_trap_vector h hv, fun s =>
    ⟨_, rfl, ?_, rfl, trapCommon_linkReturn s, sameStatus_rfl s, rfl⟩⟩
  rw [← lowByte_eq_ofNat]
  rfl

/-- Settles O26. -/
theorem haltClearsRunning : Obligations.HaltClearsRunning :=
  ⟨fun _ h hv => decode_trap_vector h hv, fun s =>
    ⟨_, rfl, rfl, trapCommon_linkReturn s, ⟨rfl, rfl⟩, rfl, rfl, rfl, rfl⟩⟩

/-- The six service numbers are 0x20 to 0x25 (D9). -/
theorem isServiceVector_iff (v : BitVec 8) : isServiceVector v = true ↔ 0x20 ≤ v.toNat ∧ v.toNat ≤ 0x25 := by
  revert v
  decide

/-- Settles O27. -/
theorem otherTrapVectorsAreAbnormal : Obligations.OtherTrapVectorsAreAbnormal := by
  refine ⟨fun w h hrange => ?_, fun v s => ⟨_, rfl, rfl, rfl, rfl, rfl, trapCommon_linkReturn s, ⟨rfl, rfl⟩, rfl⟩⟩
  have hv : isServiceVector (w.extractLsb' 0 8) = false := by
    rw [Bool.eq_false_iff, ne_eq, isServiceVector_iff, lowByte_eq_ofNat, BitVec.toNat_ofNat]
    omega
  rw [decode_trap h, decodeTrap_other hv]

/-- Settles O28. -/
theorem rtiIsAbnormal : Obligations.RtiIsAbnormal := ⟨fun _ => decode_rti, fun _ => rfl⟩

/-- Settles O29. -/
theorem resIsAbnormal : Obligations.ResIsAbnormal := ⟨fun _ => decode_res, fun _ => rfl⟩

end Sys2Proof.Machine
end

section
/-! Rules about every instruction, by cases on everything an instruction can do (`exec_effect`). -/

namespace Sys2Proof.Machine

variable {i : Instr} {s t : State}

/-! Which classes of instructions exclude one another. -/

theorem r7_mem_writtenRegs (h : linksReturn i = true) : .r7 ∈ writtenRegs i := by
  cases i <;> simp [linksReturn, writtenRegs] at h ⊢

theorem linksReturn_holdInstr (k : Hold) : linksReturn (holdInstr k) = true := by cases k <;> rfl

theorem abnormalReasonOf_holdInstr (k : Hold) : abnormalReasonOf (holdInstr k) = none := by cases k <;> rfl

theorem canFault_holdInstr {k : Hold} (hk : k = .puts ∨ k = .putsp) : canFault (holdInstr k) = true := by
  rcases hk with rfl | rfl <;> rfl

/-- The instructions that end with a result in a register or in memory signal nothing, link nothing and jump nowhere. -/
theorem data_exclusive (h : setsFlags i = true ∨ isStore i = true) :
    linksReturn i = false ∧ writesPc i = false ∧ abnormalReasonOf i = none := by
  cases i <;> simp [setsFlags, isStore, linksReturn, writesPc, abnormalReasonOf] at h ⊢

theorem setsFlags_of_isStore (h : isStore i = true) : setsFlags i = false := by
  cases i <;> simp [isStore, setsFlags] at h ⊢

theorem setsFlags_of_isLoadOrLea (h : isLoadOrLea i = true) : setsFlags i = true := by
  cases i <;> simp [isLoadOrLea, setsFlags] at h ⊢

theorem abnormalReasonOf_of_data (h : setsFlags i = true ∨ isStore i = true) : abnormalReasonOf i = none := by
  obtain ⟨-, -, hnoreason⟩ := data_exclusive h
  exact hnoreason

theorem abnormalReasonOf_of_canFault (h : canFault i = true) : abnormalReasonOf i = none := by
  cases i <;> simp [canFault, abnormalReasonOf] at h ⊢

theorem abnormalReasonOf_of_writesPc (h : writesPc i = true) : abnormalReasonOf i = none := by
  cases i <;> simp [writesPc, abnormalReasonOf] at h ⊢

/-! Registers, `pc`, memory and the fixed fields. -/

theorem sameRegsBut_setReg {named : List Reg} {r : Reg} (hr : r ∈ named) (h : SameRegsBut named s t) (v : Word) :
    SameRegsBut named s (setReg r v t) := fun q hq =>
  (getReg_setReg_ne t v fun hqr : q = r => hq (hqr ▸ hr)).trans (h q hq)

theorem sameRegsBut_of_effect (h : Effect i s t) : SameRegsBut (writtenRegs i) s t := by
  have hlinked (hl : linksReturn i = true) : SameRegsBut (writtenRegs i) s (linkReturn s) :=
    sameRegsBut_linkReturn s (r7_mem_writtenRegs hl)
  cases h with
  | result r v hf hw => exact hw ▸ fun q hq => getReg_writeDest_ne s v fun hqr => hq (hqr ▸ List.mem_cons_self)
  | store | fault | stay | branch | jump | abnormal => exact fun _ _ => rfl
  | call a hp hl => exact hlinked hl
  | otherTrap | halt | out | getcHeld | inHeld => exact hlinked rfl
  | string k | stringFault k | stringHeld k => exact hlinked (linksReturn_holdInstr k)
  | getc | inDone => exact sameRegsBut_setReg List.mem_cons_self (hlinked rfl) _

/-- Settles O37. -/
theorem onlyNamedRegistersChange : Obligations.OnlyNamedRegistersChange := fun _ _ _ hexec =>
  sameRegsBut_of_effect (exec_effect hexec)

theorem pc_of_effect (hpc : writesPc i = false) (h : Effect i s t) : t.pc = s.pc := by
  cases h with
  | branch | jump => cases hpc
  | call a hp => exact absurd (hp.symm.trans hpc) (by decide)
  | _ => rfl

/-- Settles O38. -/
theorem onlyControlTransfersChangePc : Obligations.OnlyControlTransfersChangePc := fun _ _ _ hpc hexec =>
  pc_of_effect hpc (exec_effect hexec)

theorem sameFixed_of_effect (h : Effect i s t) : SameFixed s t := by
  cases h <;> exact ⟨rfl, rfl, rfl, rfl, rfl, rfl⟩

theorem mem_of_effect (hstore : isStore i = false) (h : Effect i s t) : t.mem = s.mem := by
  cases h with
  | store a v hs => exact absurd (hs.symm.trans hstore) (by decide)
  | _ => rfl

/-- Settles O39. -/
theorem onlyStoresChangeMemory : Obligations.OnlyStoresChangeMemory := fun _ _ _ hexec =>
  ⟨sameFixed_of_effect (exec_effect hexec), fun hstore => mem_of_effect hstore (exec_effect hexec)⟩

/-! Conditions. -/

theorem abnormal_of_effect (h : Effect i s t) :
    (∃ r, abnormalReasonOf i = some r ∧ t.abnormal = true ∧ t.abnormalLog = s.abnormalLog ++ [(s.fetchAddr, r)]) ∨
    (abnormalReasonOf i = none ∧ t.abnormal = s.abnormal ∧ t.abnormalLog = s.abnormalLog) := by
  cases h with
  | abnormal r hr => exact .inl ⟨r, hr, rfl, rfl⟩
  | otherTrap v => exact .inl ⟨_, rfl, rfl, rfl⟩
  | result r v hf => exact .inr ⟨abnormalReasonOf_of_data (.inl hf), rfl, rfl⟩
  | store a v hs => exact .inr ⟨abnormalReasonOf_of_data (.inr hs), rfl, rfl⟩
  | fault x hc => exact .inr ⟨abnormalReasonOf_of_canFault hc, rfl, rfl⟩
  | call a hp => exact .inr ⟨abnormalReasonOf_of_writesPc hp, rfl, rfl⟩
  | string k | stringFault k | stringHeld k => exact .inr ⟨abnormalReasonOf_holdInstr k, rfl, rfl⟩
  | _ => exact .inr ⟨rfl, rfl, rfl⟩

theorem fault_of_effect (h : Effect i s t) : t.fault = s.fault ∨
    (canFault i = true ∧ s.eaPolicy = .fault ∧ t.running = false ∧ ∃ x, t.fault = .memoryFault x ∧ ¬ inMemory x) := by
  cases h with
  | fault x hc hl hp hx => exact .inr ⟨hc, hp, rfl, x, rfl, hx⟩
  | stringFault k hk bs x hp hx => exact .inr ⟨canFault_holdInstr hk, hp, rfl, x, rfl, hx⟩
  | _ => exact .inl rfl

theorem running_of_effect (h : Effect i s t) : t.running = s.running ∨
    (t.running = false ∧ (i = .trapHalt ∨ ∃ x, t.fault = .memoryFault x)) := by
  cases h with
  | halt => exact .inr ⟨rfl, .inl rfl⟩
  | fault x | stringFault _ _ _ x => exact .inr ⟨rfl, .inr ⟨x, rfl⟩⟩
  | _ => exact .inl rfl

/-- Settles O40. -/
theorem onlyListedInstructionsRaiseConditions : Obligations.OnlyListedInstructionsRaiseConditions := by
  intro i s t hexec
  have heffect := exec_effect hexec
  refine ⟨fun r hr => ?_, fun hnone => ?_, fault_of_effect heffect, running_of_effect heffect⟩ <;>
    rcases abnormal_of_effect heffect with ⟨r', hr', habn⟩ | ⟨hnone', hsame⟩
  · obtain rfl : r' = r := Option.some.inj (hr'.symm.trans hr)
    exact habn
  · cases hnone'.symm.trans hr
  · cases hr'.symm.trans hnone
  · exact hsame

/-! The flag setters and the stores. -/

/-- The flag setters write a result, the stores a word; either may fault before anything else. -/
theorem data_of_effect (hdata : setsFlags i = true ∨ isStore i = true) (h : Effect i s t) :
    (setsFlags i = true ∧ ∃ r v, writtenRegs i = [r] ∧ t = writeDest r v s) ∨
    (isStore i = true ∧ ∃ a v, t = storeWord a v s) ∨ FaultsOutOfRange i s t := by
  obtain ⟨hnolink, hnopc, hnoreason⟩ := data_exclusive hdata
  cases h with
  | result r v hf hw => exact .inl ⟨hf, r, v, hw, rfl⟩
  | store a v hs => exact .inr (.inl ⟨hs, a, v, rfl⟩)
  | fault x hc hl hp hx => exact .inr (.inr ⟨hc, hp, x, hx, rfl⟩)
  | call a hp => cases hp.symm.trans hnopc
  | abnormal r hr => cases hr.symm.trans hnoreason
  | string k | stringFault k | stringHeld k => cases (linksReturn_holdInstr k).symm.trans hnolink
  | stay | branch | jump => cases hnopc
  | _ => cases hnolink

theorem cond_of_effect (hflags : setsFlags i = false) (h : Effect i s t) : t.cond = s.cond := by
  cases h with
  | result r v hf => cases hf.symm.trans hflags
  | _ => rfl

theorem flags_of_effect (hflags : setsFlags i = true) (h : Effect i s t) :
    (∃ r, writtenRegs i = [r] ∧ CcOfResult (getReg r t) t.cond) ∨ FaultsOutOfRange i s t := by
  rcases data_of_effect (.inl hflags) h with ⟨-, r, v, hw, rfl⟩ | ⟨hs, -⟩ | hfault
  · refine .inl ⟨r, hw, ?_⟩
    rw [getReg_writeDest_self]
    exact ccOfResult_ccOf v
  · cases (setsFlags_of_isStore hs).symm.trans hflags
  · exact .inr hfault

theorem store_of_effect (hstore : isStore i = true) (h : Effect i s t) :
    t.cond = s.cond ∧ SameRegsBut [] s t ∧ t.pc = s.pc ∧ (Quiet s t ∨ FaultsOutOfRange i s t) := by
  rcases data_of_effect (.inr hstore) h with ⟨hf, -⟩ | ⟨-, a, v, rfl⟩ | hfault
  · cases (setsFlags_of_isStore hstore).symm.trans hf
  · obtain ⟨-, -, hregs, hcond, hpc, hquiet⟩ := storesWord_storeWord s a v
    exact ⟨hcond, hregs, hpc, .inl hquiet⟩
  · obtain ⟨-, -, x, -, rfl⟩ := id hfault
    exact ⟨rfl, fun _ _ => rfl, rfl, .inr hfault⟩

theorem load_of_effect (hload : isLoadOrLea i = true) (h : Effect i s t) :
    t.pc = s.pc ∧ SameMemory s t ∧
      ((∃ r, writtenRegs i = [r] ∧ SameRegsBut [r] s t ∧ Quiet s t) ∨ FaultsOutOfRange i s t) := by
  have hflags := setsFlags_of_isLoadOrLea hload
  rcases data_of_effect (.inl hflags) h with ⟨-, r, v, hw, rfl⟩ | ⟨hs, -⟩ | hfault
  · obtain ⟨-, -, hregs, hpc, hmem, hquiet⟩ := writesResult_writeDest s r v
    exact ⟨hpc, hmem, .inl ⟨r, hw, hregs, hquiet⟩⟩
  · cases (setsFlags_of_isStore hs).symm.trans hflags
  · obtain ⟨-, -, x, -, rfl⟩ := id hfault
    exact ⟨rfl, fun _ => rfl, .inr hfault⟩

/-! A word stored and loaded back. -/

theorem exec_ld_of_address {dr : Reg} {off : BitVec 9} {ea : Word}
    (h : effectiveAddress s.eaPolicy s.pc (sextInt off) = .address ea) :
    exec (.ld dr off) s = .next (writeDest dr (readWord s.mem ea) s) := withAddress_of_address h _

theorem exec_ldi_of_address {dr : Reg} {off : BitVec 9} {ea : Word}
    (h : effectiveAddress s.eaPolicy s.pc (sextInt off) = .address ea) :
    exec (.ldi dr off) s = .next (writeDest dr (readWord s.mem (readWord s.mem ea)) s) := withAddress_of_address h _

theorem exec_ldr_of_address {dr base : Reg} {off : BitVec 6} {ea : Word}
    (h : effectiveAddress s.eaPolicy (getReg base s) (sextInt off) = .address ea) :
    exec (.ldr dr base off) s = .next (writeDest dr (readWord s.mem ea) s) := withAddress_of_address h _

theorem ld_after_st {u : State} {sr dr : Reg} {off : BitVec 9} {ea : Word} (hm : memWf s.mem = true)
    (hea : effectiveAddress s.eaPolicy s.pc (sextInt off) = .address ea) (hst : exec (.st sr off) s = .next t)
    (hld : exec (.ld dr off) t = .next u) : getReg dr u = getReg sr s := by
  rw [exec_st_of_address hea] at hst
  cases hst
  rw [exec_ld_of_address (s := storeWord _ _ s) hea] at hld
  cases hld
  rw [getReg_writeDest_self, readWord_storeWord_self hm]

/-- The pointer is read again after the store, so the store must have left it. -/
theorem ldi_after_sti {u : State} {sr dr : Reg} {off : BitVec 9} {ea : Word} (hm : memWf s.mem = true)
    (hea : effectiveAddress s.eaPolicy s.pc (sextInt off) = .address ea) (hptr : readWord s.mem ea ≠ ea)
    (hst : exec (.sti sr off) s = .next t) (hld : exec (.ldi dr off) t = .next u) : getReg dr u = getReg sr s := by
  rw [exec_sti_of_address hea] at hst
  cases hst
  rw [exec_ldi_of_address (s := storeWord _ _ s) hea] at hld
  cases hld
  rw [getReg_writeDest_self, storeWord_mem, readWord_writeWord_ne hptr.symm, readWord_writeWord_self _ _ hm]

theorem ldr_after_str {u : State} {sr dr base : Reg} {off : BitVec 6} {ea : Word} (hm : memWf s.mem = true)
    (hea : effectiveAddress s.eaPolicy (getReg base s) (sextInt off) = .address ea)
    (hst : exec (.str sr base off) s = .next t) (hld : exec (.ldr dr base off) t = .next u) :
    getReg dr u = getReg sr s := by
  rw [exec_str_of_address hea] at hst
  cases hst
  rw [exec_ldr_of_address (s := storeWord _ _ s) hea] at hld
  cases hld
  rw [getReg_writeDest_self, readWord_storeWord_self hm]

/-- Settles O35. -/
theorem loadStoreFamilyProperties : Obligations.LoadStoreFamilyProperties := by
  refine ⟨fun i s t hexec => ?_, fun s t u sr dr base off9 off6 ea hm =>
    ⟨ld_after_st hm, ldi_after_sti hm, ldr_after_str hm⟩⟩
  have heffect := exec_effect hexec
  exact ⟨fun h => store_of_effect h heffect, fun h => load_of_effect h heffect, fun h => flags_of_effect h heffect⟩

/-! Every instruction and every step answers a next state. -/

theorem withAddress_total (b : Word) (o : Int) (s : State) (handler : Word → State) :
    ∃ t, withAddress b o s handler = .next t := by
  rcases withAddress_cases s b o handler with ⟨ea, -, h⟩ | ⟨x, -, h⟩ <;> exact ⟨_, h⟩

theorem continueHeld_total (k : Hold) (s : State) : ∃ t, continueHeld k s = .next t := by
  cases k with
  | getc => rcases getcBody_cases s with ⟨-, h⟩ | ⟨c, rest, -, h⟩ <;> exact ⟨_, h⟩
  | inp => rcases inBody_cases s with ⟨-, h⟩ | ⟨c, rest, -, h⟩ <;> exact ⟨_, h⟩
  | puts => obtain ⟨bs, h | ⟨x, -, -, h⟩ | ⟨-, h⟩⟩ := stringBody_outcome .puts emitPuts s <;> exact ⟨_, h⟩
  | putsp => obtain ⟨bs, h | ⟨x, -, -, h⟩ | ⟨-, h⟩⟩ := stringBody_outcome .putsp emitPutsp s <;> exact ⟨_, h⟩

theorem exec_total (i : Instr) (s : State) : ∃ t, exec i s = .next t := by
  cases i with
  | ld | ldi | ldr | st | sti | str => exact withAddress_total _ _ s _
  | trapGetc => exact continueHeld_total .getc (linkReturn s)
  | trapIn => exact continueHeld_total .inp (consoleOut Config.inPrompt (linkReturn s))
  | trapPuts => exact continueHeld_total .puts (linkReturn s)
  | trapPutsp => exact continueHeld_total .putsp (linkReturn s)
  | _ => exact ⟨_, rfl⟩

theorem retire_total {r : Result} (h : ∃ t, r = .next t) : ∃ t, retire r = .next t := by
  obtain ⟨t, rfl⟩ := h
  exact ⟨_, retire_next t⟩

theorem step_total (s : State) : ∃ t, step s = .next t := by
  rcases step_cases s with ⟨-, h⟩ | ⟨-, -, -, h⟩ | ⟨-, -, -, h⟩ | ⟨-, h⟩ | ⟨k, -, h⟩ <;> rw [h]
  · exact ⟨_, rfl⟩
  · exact ⟨_, rfl⟩
  · exact retire_total (exec_total _ _)
  · exact retire_total (exec_total _ _)
  · exact retire_total (continueHeld_total k _)

/-- Settles O41. -/
theorem everyInstructionHasANextState : Obligations.EveryInstructionHasANextState := ⟨exec_total, step_total⟩

end Sys2Proof.Machine
end

section
/-! The string services (44_system.md R144, R146): how a scan from its start ends, in terms of the words it passes. -/

namespace Sys2Proof.Machine

/-- What a scan outputs for the first `n` words. -/
def scanBytes (emit : Word → List Byte) (m : Memory) (base : Word) (n : Nat) : List Byte :=
  (List.range n).flatMap fun j => emit (scanWord m base j)

theorem scanBytes_emitPuts (m : Memory) (base : Word) (n : Nat) : scanBytes emitPuts m base n = putsBytes m base n :=
  List.map_eq_flatMap.symm

theorem scanBytes_emitPutsp (m : Memory) (base : Word) (n : Nat) : scanBytes emitPutsp m base n = putspBytes m base n := rfl

/-- The scan's index `k` is read: in range, or the sum wraps. -/
theorem reads_of_effectiveAddress {p : EaPolicy} {base : Word} {k : Nat} {a : Word}
    (h : effectiveAddress p base k = .address a) : base.toNat + k < 65536 ∨ p = .wrap := by
  rcases effectiveAddress_scan p base k with ⟨-, hr⟩ | ⟨h', -⟩
  · exact hr
  · cases h.symm.trans h'

variable {p : EaPolicy} {m : Memory} {base : Word}

/-- `scanString_cases` for a scan from the start of the string. -/
theorem scanString_from_start (p : EaPolicy) (m : Memory) (emit : Word → List Byte) (base : Word) (fuel : Nat) :
    ∃ n e, scanString p m emit base fuel 0 = (scanBytes emit m base n, e) ∧ n ≤ fuel ∧
      (∀ j, j < n → scanWord m base j ≠ 0#16 ∧ (base.toNat + j < 65536 ∨ p = .wrap)) ∧
      ((e = .terminated ∧ n < fuel ∧ scanWord m base n = 0#16 ∧ (base.toNat + n < 65536 ∨ p = .wrap)) ∨
        (e = .outOfRange ((base.toNat : Int) + n) ∧ p = .fault ∧ 65536 ≤ base.toNat + n) ∨
        (e = .unfinished ∧ n = fuel ∧ (base.toNat + n < 65536 ∨ p = .wrap))) := by
  obtain ⟨n, hn, hpassed, hbytes, hend⟩ := scanString_cases p m emit base fuel 0
  simp only [Nat.zero_add] at hpassed hbytes hend
  refine ⟨n, _, Prod.ext hbytes rfl, hn, fun j hj => ?_, ?_⟩
  · obtain ⟨haddr, hword⟩ := hpassed j hj
    exact ⟨hword, reads_of_effectiveAddress haddr⟩
  · rcases hend with ⟨he, hlt, haddr, hzero⟩ | hend
    · exact .inl ⟨he, hlt, hzero, reads_of_effectiveAddress haddr⟩
    · exact .inr hend

/-- The first zero word ends the scan. -/
theorem scanString_of_stringAt (emit : Word → List Byte) {n fuel : Nat} (hreach : ScanReaches p base n)
    (hstring : StringAt m base n) (hfuel : n < fuel) :
    scanString p m emit base fuel 0 = (scanBytes emit m base n, .terminated) := by
  obtain ⟨k, e, hscan, hk, hpassed, hend⟩ := scanString_from_start p m emit base fuel
  obtain ⟨hnonzero, hzero⟩ := hstring
  have hle : k ≤ n := Nat.le_of_not_lt fun hlt => (hpassed n hlt).1 hzero
  rw [hscan]
  rcases hend with ⟨rfl, -, hk0, -⟩ | ⟨-, rfl, hover⟩ | ⟨-, rfl, -⟩
  · obtain rfl : k = n := Nat.le_antisymm hle (Nat.le_of_not_lt fun hlt => hnonzero k hlt hk0)
    rfl
  · rcases hreach with hreach | ⟨hwrap, -⟩
    · omega
    · cases hwrap
  · omega

/-- Under `Fault` a scan that meets no zero word ends at 65536, one past the last address. -/
theorem scanString_past_the_end (hp : p = .fault) (emit : Word → List Byte) {fuel : Nat} (hfuel : 65536 ≤ fuel)
    (hnonzero : ∀ a : Word, base.toNat ≤ a.toNat → readWord m a ≠ 0#16) :
    scanString p m emit base fuel 0 = (scanBytes emit m base (65536 - base.toNat), .outOfRange 65536) := by
  subst hp
  obtain ⟨n, e, hscan, hn, hpassed, hend⟩ := scanString_from_start .fault m emit base fuel
  have hbase := base.isLt
  rw [hscan]
  rcases hend with ⟨-, -, hzero, hin | hwrap⟩ | ⟨rfl, -, hover⟩ | ⟨-, rfl, hin | hwrap⟩
  · refine absurd hzero (hnonzero (scanAddress base n) ?_)
    rw [scanAddress, BitVec.toNat_ofNat, Nat.mod_eq_of_lt hin]
    omega
  · cases hwrap
  · have hlast : n ≤ 65536 - base.toNat := Nat.le_of_not_lt fun hlt => by
      rcases (hpassed (65536 - base.toNat) hlt).2 with hin | hwrap
      · omega
      · cases hwrap
    obtain rfl : n = 65536 - base.toNat := by omega
    rw [show (base.toNat : Int) + ((65536 - base.toNat : Nat) : Int) = 65536 by omega]
  · omega
  · cases hwrap

/-- Under `Wrap` a scan of a memory without a zero word uses up its reads (R218). -/
theorem scanString_without_zero (hp : p = .wrap) (emit : Word → List Byte) (fuel : Nat)
    (hnonzero : ∀ a : Word, readWord m a ≠ 0#16) :
    scanString p m emit base fuel 0 = (scanBytes emit m base fuel, .unfinished) := by
  subst hp
  obtain ⟨n, e, hscan, -, -, hend⟩ := scanString_from_start .wrap m emit base fuel
  rw [hscan]
  rcases hend with ⟨-, -, hzero, -⟩ | ⟨-, hfault, -⟩ | ⟨rfl, rfl, -⟩
  · exact absurd hzero (hnonzero _)
  · cases hfault
  · rfl

/-! The services' bodies. -/

variable {s : State}

theorem finishScan_terminated (k : Hold) (bs : List Byte) :
    finishScan k (bs, .terminated) s = .next (consoleOut bs s) := rfl

theorem finishScan_outOfRange (k : Hold) (bs : List Byte) (x : Int) :
    finishScan k (bs, .outOfRange x) s = .next (raiseMemoryFault x (consoleOut bs s)) := rfl

theorem finishScan_unfinished (k : Hold) (bs : List Byte) :
    finishScan k (bs, .unfinished) s = .next { consoleOut bs s with phase := .holding k } := rfl

theorem stringBody_of_stringAt (k : Hold) (emit : Word → List Byte) {n : Nat}
    (hreach : ScanReaches s.eaPolicy (getReg .r0 s) n) (hstring : StringAt s.mem (getReg .r0 s) n) :
    stringBody k emit s = .next (consoleOut (scanBytes emit s.mem (getReg .r0 s) n) s) := by
  have hfuel : n < lapReads := by
    unfold lapReads
    rcases hreach with h | ⟨-, h⟩ <;> omega
  rw [stringBody, scanString_of_stringAt emit hreach hstring hfuel, finishScan_terminated]

theorem stringBody_past_the_end (k : Hold) (emit : Word → List Byte) (hpolicy : s.eaPolicy = .fault)
    (hnonzero : ∀ a : Word, (getReg .r0 s).toNat ≤ a.toNat → readWord s.mem a ≠ 0#16) :
    stringBody k emit s = .next (raiseMemoryFault 65536
      (consoleOut (scanBytes emit s.mem (getReg .r0 s) (65536 - (getReg .r0 s).toNat)) s)) := by
  rw [stringBody, scanString_past_the_end hpolicy emit (Nat.le_refl lapReads) hnonzero, finishScan_outOfRange]

theorem stringBody_without_zero (k : Hold) (emit : Word → List Byte) (hpolicy : s.eaPolicy = .wrap)
    (hnonzero : ∀ a : Word, readWord s.mem a ≠ 0#16) :
    stringBody k emit s =
      .next { consoleOut (scanBytes emit s.mem (getReg .r0 s) lapReads) s with phase := .holding k } := by
  rw [stringBody, scanString_without_zero hpolicy emit lapReads hnonzero, finishScan_unfinished]

theorem exec_trapPuts (s : State) : exec .trapPuts s = stringBody .puts emitPuts (linkReturn s) := rfl

theorem exec_trapPutsp (s : State) : exec .trapPutsp s = stringBody .putsp emitPutsp (linkReturn s) := rfl

/-- Settles O23. -/
theorem putsWritesString : Obligations.PutsWritesString := by
  refine ⟨fun w h hv => decode_trap_vector h hv, fun s n hreach hstring => ?_⟩
  refine ⟨_, (exec_trapPuts s).trans (stringBody_of_stringAt (s := linkReturn s) .puts emitPuts hreach hstring), ?_⟩
  rw [scanBytes_emitPuts]
  exact ⟨rfl, rfl, trapCommon_linkReturn s, sameStatus_rfl s, rfl⟩

/-- Settles O25. -/
theorem putspWritesPackedString : Obligations.PutspWritesPackedString := by
  refine ⟨fun w h hv => decode_trap_vector h hv, fun s n hreach hstring => ?_⟩
  refine ⟨_, (exec_trapPutsp s).trans (stringBody_of_stringAt (s := linkReturn s) .putsp emitPutsp hreach hstring), ?_⟩
  rw [scanBytes_emitPutsp]
  exact ⟨rfl, rfl, trapCommon_linkReturn s, sameStatus_rfl s, rfl⟩

/-- Settles O32. -/
theorem stringServicesFaultPastTheEnd : Obligations.StringServicesFaultPastTheEnd := by
  intro s hpolicy hnonzero
  refine ⟨⟨_, (exec_trapPuts s).trans (stringBody_past_the_end (s := linkReturn s) .puts emitPuts hpolicy hnonzero), ?_⟩,
    ⟨_, (exec_trapPutsp s).trans (stringBody_past_the_end (s := linkReturn s) .putsp emitPutsp hpolicy hnonzero), ?_⟩⟩
  · rw [scanBytes_emitPuts]
    exact ⟨rfl, rfl, rfl, rfl, rfl, rfl, rfl, trapCommon_linkReturn s⟩
  · rw [scanBytes_emitPutsp]
    exact ⟨rfl, rfl, rfl, rfl, rfl, rfl, rfl, trapCommon_linkReturn s⟩

/-! A service held for ever. -/

theorem step_of_holding {k : Hold} (h : s.phase = .holding k) : step s = retire (continueHeld k (toReady s)) := by
  rw [step, engineStep, h]

theorem hold_again {k : Hold} (h : s.phase = .holding k) (bs : List Byte) :
    { consoleOut bs (toReady s) with phase := .holding k } = { s with cout := s.cout ++ bs } := by
  rw [← h]
  rfl

/-- A step of a held string service that finds no zero word: one lap more of output. -/
theorem step_of_lap {k : Hold} {emit : Word → List Byte} (hbody : ∀ u, continueHeld k u = stringBody k emit u)
    (hheld : s.phase = .holding k) (hpolicy : s.eaPolicy = .wrap) (hnonzero : ∀ a : Word, readWord s.mem a ≠ 0#16) :
    step s = .next { s with cout := s.cout ++ scanBytes emit s.mem (getReg .r0 s) lapReads } := by
  rw [step_of_holding hheld, hbody, stringBody_without_zero (s := toReady s) k emit hpolicy hnonzero, retire_next,
    if_neg (by simp), toReady_mem, getReg_toReady, hold_again hheld]

/-- Settles O33. -/
theorem stringServicesWithoutZeroNeverComplete : Obligations.StringServicesWithoutZeroNeverComplete := by
  intro s hpolicy hnonzero
  simp only [← scanBytes_emitPuts, ← scanBytes_emitPutsp]
  refine ⟨⟨_, (exec_trapPuts s).trans (stringBody_without_zero (s := linkReturn s) .puts emitPuts hpolicy hnonzero), rfl,
      rfl, rfl, trapCommon_linkReturn s, sameStatus_rfl s, step_of_lap (fun _ => rfl) rfl hpolicy hnonzero⟩,
    ⟨_, (exec_trapPutsp s).trans (stringBody_without_zero (s := linkReturn s) .putsp emitPutsp hpolicy hnonzero), rfl,
      rfl, rfl, trapCommon_linkReturn s, sameStatus_rfl s, step_of_lap (fun _ => rfl) rfl hpolicy hnonzero⟩,
    fun hheld => step_of_lap (fun _ => rfl) hheld hpolicy hnonzero,
    fun hheld => step_of_lap (fun _ => rfl) hheld hpolicy hnonzero⟩

end Sys2Proof.Machine
end

section
/-! What instructions cannot tell apart: a relation between states that leaves the fields handlers read equal, and that every
operation of a handler keeps, is kept by every instruction. -/

namespace Sys2Proof.Machine

/-- A relation that every operation of a handler keeps; the five fields first are what handlers other than BR's read. -/
structure KeptByOps (R : State → State → Prop) : Prop where
  regs : ∀ {s t}, R s t → s.regs = t.regs
  pc : ∀ {s t}, R s t → s.pc = t.pc
  mem : ∀ {s t}, R s t → s.mem = t.mem
  cin : ∀ {s t}, R s t → s.cin = t.cin
  eaPolicy : ∀ {s t}, R s t → s.eaPolicy = t.eaPolicy
  setReg : ∀ {s t} (r v), R s t → R (setReg r v s) (setReg r v t)
  setcc : ∀ {s t} (v), R s t → R (setcc v s) (setcc v t)
  setPc : ∀ {s t} (a), R s t → R (setPc a s) (setPc a t)
  storeWord : ∀ {s t} (a v), R s t → R (storeWord a v s) (storeWord a v t)
  consoleOut : ∀ {s t} (bs), R s t → R (consoleOut bs s) (consoleOut bs t)
  setInput : ∀ {s t} (bs), R s t → R { s with cin := bs } { t with cin := bs }
  holding : ∀ {s t} (k), R s t → R { s with phase := .holding k } { t with phase := .holding k }
  interpret : ∀ {s t} (sig), R s t → R (interpret sig s) (interpret sig t)

/-- Two outcomes that are next states in a relation. -/
def NextRelated (R : State → State → Prop) (a b : Result) : Prop := ∃ s t, a = .next s ∧ b = .next t ∧ R s t

namespace KeptByOps

variable {R : State → State → Prop} {s t : State}

theorem getReg (hR : KeptByOps R) (h : R s t) (r : Reg) : getReg r s = getReg r t := by
  rw [Machine.getReg, Machine.getReg, hR.regs h]

theorem writeDest (hR : KeptByOps R) (h : R s t) (r : Reg) {v v' : Word} (hv : v = v') :
    R (writeDest r v s) (writeDest r v' t) := hv ▸ hR.setcc v (hR.setReg r v h)

theorem linkReturn (hR : KeptByOps R) (h : R s t) : R (linkReturn s) (linkReturn t) := by
  rw [Machine.linkReturn, Machine.linkReturn, hR.pc h]
  exact hR.setReg .r7 t.pc h

theorem complete (hR : KeptByOps R) (h : R s t) (sig : Signal) : NextRelated R (complete sig s) (complete sig t) :=
  ⟨_, _, rfl, rfl, hR.interpret sig h⟩

theorem hold (hR : KeptByOps R) (h : R s t) (k : Hold) : NextRelated R (hold k s) (hold k t) :=
  ⟨_, _, rfl, rfl, hR.holding k h⟩

theorem withAddress (hR : KeptByOps R) (h : R s t) {b b' : Word} (hb : b = b') (o : Int) {f g : Word → State}
    (hfg : ∀ ea, R (f ea) (g ea)) : NextRelated R (withAddress b o s f) (withAddress b' o t g) := by
  subst hb
  unfold Machine.withAddress
  rw [hR.eaPolicy h]
  cases effectiveAddress t.eaPolicy b o with
  | address ea => exact hR.complete (hfg ea) .none
  | outOfRange i => exact hR.complete h (.memoryFault i)

theorem getcBody (hR : KeptByOps R) (h : R s t) : NextRelated R (getcBody s) (getcBody t) := by
  unfold Machine.getcBody
  rw [hR.cin h]
  cases t.cin with
  | nil => exact hR.hold h .getc
  | cons c rest => exact hR.complete (hR.setReg _ _ (hR.setInput rest h)) .none

theorem inBody (hR : KeptByOps R) (h : R s t) : NextRelated R (inBody s) (inBody t) := by
  unfold Machine.inBody
  rw [hR.cin h]
  cases t.cin with
  | nil => exact hR.hold h .inp
  | cons c rest => exact hR.complete (hR.setReg _ _ (hR.consoleOut _ (hR.setInput rest h))) .none

theorem finishScan (hR : KeptByOps R) (h : R s t) (k : Hold) (r : List Byte × ScanEnd) :
    NextRelated R (finishScan k r s) (finishScan k r t) := by
  obtain ⟨bs, e⟩ := r
  cases e with
  | terminated => exact hR.complete (hR.consoleOut bs h) .none
  | outOfRange i => exact hR.complete (hR.consoleOut bs h) (.memoryFault i)
  | unfinished => exact hR.hold (hR.consoleOut bs h) k

theorem stringBody (hR : KeptByOps R) (h : R s t) (k : Hold) (emit : Word → List Byte) :
    NextRelated R (stringBody k emit s) (stringBody k emit t) := by
  rw [Machine.stringBody, Machine.stringBody, hR.eaPolicy h, hR.mem h, hR.getReg h]
  exact hR.finishScan h k _

/-- Every instruction keeps the relation; BR, which reads `cond` too, where `cond` agrees. -/
theorem exec (hR : KeptByOps R) (i : Instr) (hcond : (∀ n z p off, i ≠ .br n z p off) ∨ s.cond = t.cond) (h : R s t) :
    NextRelated R (exec i s) (exec i t) := by
  have hpc := hR.pc h
  have hreg := hR.getReg h
  have hload : ∀ a, loadWord a s = loadWord a t := fun a => by rw [loadWord, loadWord, hR.mem h]
  have hlink := hR.linkReturn h
  cases i with
  | br n z p off =>
    have hc : s.cond = t.cond := hcond.resolve_left fun hne => hne n z p off rfl
    refine hR.complete ?_ .none
    rw [hc, hpc]
    split
    · exact hR.setPc _ h
    · exact h
  | addReg dr sr1 sr2 => exact hR.complete (hR.writeDest h dr (by rw [hreg, hreg])) .none
  | addImm dr sr1 imm => exact hR.complete (hR.writeDest h dr (by rw [hreg])) .none
  | andReg dr sr1 sr2 => exact hR.complete (hR.writeDest h dr (by rw [hreg, hreg])) .none
  | andImm dr sr1 imm => exact hR.complete (hR.writeDest h dr (by rw [hreg])) .none
  | not dr sr => exact hR.complete (hR.writeDest h dr (by rw [hreg])) .none
  | lea dr off => exact hR.complete (hR.writeDest h dr (by rw [hpc])) .none
  | ld dr off => exact hR.withAddress h hpc _ fun ea => hR.writeDest h dr (hload ea)
  | ldi dr off => exact hR.withAddress h hpc _ fun ea => hR.writeDest h dr (by rw [hload, hload])
  | ldr dr base off => exact hR.withAddress h (hreg base) _ fun ea => hR.writeDest h dr (hload ea)
  | st sr off => exact hR.withAddress h hpc _ fun ea => hreg sr ▸ hR.storeWord ea _ h
  | sti sr off => exact hR.withAddress h hpc _ fun ea => hreg sr ▸ hload ea ▸ hR.storeWord _ _ h
  | str sr base off => exact hR.withAddress h (hreg base) _ fun ea => hreg sr ▸ hR.storeWord ea _ h
  | jmp base => exact hR.complete (hreg base ▸ hR.setPc _ h) .none
  | jsr off => exact hR.complete (hpc ▸ hR.setPc _ hlink) .none
  | jsrr base => exact hR.complete (hR.getReg hlink base ▸ hR.setPc _ hlink) .none
  | rti => exact hR.complete h _
  | res => exact hR.complete h _
  | trapGetc => exact hR.getcBody hlink
  | trapOut => exact hR.complete (hR.getReg hlink .r0 ▸ hR.consoleOut _ hlink) .none
  | trapPuts => exact hR.stringBody hlink .puts emitPuts
  | trapIn => exact hR.inBody (hR.consoleOut _ hlink)
  | trapPutsp => exact hR.stringBody hlink .putsp emitPutsp
  | trapHalt => exact hR.complete hlink .halt
  | trapOther v => exact hR.complete hlink _

end KeptByOps

end Sys2Proof.Machine
end

section
/-! Three relations that meet `KeptByOps`: two states that differ in `cond` alone, in the debugger's switch and budget alone, or in
nothing that a program can observe. -/

namespace Sys2Proof.Machine

/-- Two states that differ at most in `cond`. -/
def EqualButCond (s t : State) : Prop := { s with cond := 0#3 } = { t with cond := 0#3 }

theorem keptByOps_equalButCond : KeptByOps EqualButCond where
  regs h := (congrArg State.regs h :)
  pc h := (congrArg State.pc h :)
  mem h := (congrArg State.mem h :)
  cin h := (congrArg State.cin h :)
  eaPolicy h := (congrArg State.eaPolicy h :)
  setReg r v h := congrArg (setReg r v) h
  setcc _ h := h
  setPc a h := congrArg (setPc a) h
  storeWord a v h := congrArg (storeWord a v) h
  consoleOut bs h := congrArg (consoleOut bs) h
  setInput bs h := (congrArg (fun s : State => { s with cin := bs }) h :)
  holding k h := (congrArg (fun s : State => { s with phase := .holding k }) h :)
  interpret sig h := by
    cases sig with
    | none => exact h
    | halt => exact (congrArg raiseHalt h :)
    | abnormal r => exact (congrArg (raiseAbnormal r) h :)
    | memoryFault x => exact (congrArg (raiseMemoryFault x) h :)

theorem keptByOps_equalButDebugger : KeptByOps EqualButDebugger where
  regs h := (congrArg State.regs h :)
  pc h := (congrArg State.pc h :)
  mem h := (congrArg State.mem h :)
  cin h := (congrArg State.cin h :)
  eaPolicy h := (congrArg State.eaPolicy h :)
  setReg r v h := congrArg (setReg r v) h
  setcc v h := congrArg (setcc v) h
  setPc a h := congrArg (setPc a) h
  storeWord a v h := congrArg (storeWord a v) h
  consoleOut bs h := congrArg (consoleOut bs) h
  setInput bs h := (congrArg (fun s : State => { s with cin := bs }) h :)
  holding k h := (congrArg (fun s : State => { s with phase := .holding k }) h :)
  interpret sig h := by
    cases sig with
    | none => exact h
    | halt => exact (congrArg raiseHalt h :)
    | abnormal r => exact (congrArg (raiseAbnormal r) h :)
    | memoryFault x => exact (congrArg (raiseMemoryFault x) h :)

/-- What a step of a program can depend on, and what tells whether it goes on: its view, the policy, `running` and where
the step stands. -/
def SameToProgram (s t : State) : Prop :=
  programView s = programView t ∧ s.eaPolicy = t.eaPolicy ∧ s.running = t.running ∧ s.phase = t.phase

theorem keptByOps_sameToProgram : KeptByOps SameToProgram where
  regs := fun ⟨h, _⟩ => congrArg ProgramView.regs h
  pc := fun ⟨h, _⟩ => congrArg ProgramView.pc h
  mem := fun ⟨h, _⟩ => congrArg ProgramView.mem h
  cin := fun ⟨h, _⟩ => congrArg ProgramView.cin h
  eaPolicy := fun ⟨_, h, _⟩ => h
  setReg r v := fun ⟨h, hrest⟩ => ⟨congrArg (fun p : ProgramView => { p with regs := regWrite p.regs v r }) h, hrest⟩
  setcc v := fun ⟨h, hrest⟩ => ⟨congrArg (fun p : ProgramView => { p with cond := ccOf v }) h, hrest⟩
  setPc a := fun ⟨h, hrest⟩ => ⟨congrArg (fun p : ProgramView => { p with pc := a }) h, hrest⟩
  storeWord a v := fun ⟨h, hrest⟩ => ⟨congrArg (fun p : ProgramView => { p with mem := writeWord p.mem a v }) h, hrest⟩
  consoleOut _ := fun h => h
  setInput bs := fun ⟨h, hrest⟩ => ⟨congrArg (fun p : ProgramView => { p with cin := bs }) h, hrest⟩
  holding _ := fun ⟨h, hpolicy, hrun, _⟩ => ⟨h, hpolicy, hrun, rfl⟩
  interpret sig := fun ⟨h, hpolicy, hrun, hphase⟩ => by
    cases sig with
    | none | abnormal => exact ⟨h, hpolicy, hrun, hphase⟩
    | halt | memoryFault => exact ⟨h, hpolicy, rfl, hphase⟩

/-- Settles O34: the writers are `cond_of_effect` and `flags_of_effect`; only BR asks for `cond` in `KeptByOps.exec`. -/
theorem condHasSevenWritersAndOneReader : Obligations.CondHasSevenWritersAndOneReader := by
  refine ⟨fun i s t hexec => ?_, fun i s t c hnotBr hexec => ?_⟩
  · have heffect := exec_effect hexec
    exact ⟨fun hf => cond_of_effect hf heffect, fun hf => flags_of_effect hf heffect⟩
  · have hs : EqualButCond s { s with cond := c } := rfl
    obtain ⟨t', u, ht', hu, htu⟩ := keptByOps_equalButCond.exec i (.inl hnotBr) hs
    cases hexec.symm.trans ht'
    exact ⟨u, hu, (congrArg (fun x : State => { x with cond := t.cond }) htu).symm⟩

end Sys2Proof.Machine
end

section
/-! The engine's step (40_instruction_cycle.md R80 to R92) and the debugger hooks (60_exceptions.md R185 to R190). -/

namespace Sys2Proof.Machine

variable {s t u : State} {i : Instr}

/-! The step from each place it can begin. -/

theorem step_of_stopped (hready : s.phase = .ready) (hstopped : s.running = false) : step s = .next s := by
  simp [step, engineStep, hready, hstopped]

theorem step_of_debugEnter {m : Option Word} (h : s.phase = .inDebugEnter m) : step s = .next s := by
  rw [step, engineStep, h]

theorem step_of_resuming (h : s.phase = .resuming) : step s = runInstruction (toReady s) := by
  rw [step, engineStep, h]

/-- Settles O44. -/
theorem stoppedEngineDoesNothing : Obligations.StoppedEngineDoesNothing := fun _ =>
  ⟨step_of_stopped, fun _ => step_of_debugEnter⟩

theorem step_of_hook_stop (h : AboutToStep s) {m : Option Word} (hstop : (preHook (fetch s)).phase = .inDebugEnter m) :
    step s = .next (preHook (fetch s)) := by
  obtain ⟨hready, hrun⟩ := h
  simp [step, engineStep, hready, hrun, hstop]

theorem step_of_no_hook_stop (h : AboutToStep s) (hpre : preHook (fetch s) = fetch s) :
    step s = retire (exec (decode (readWord s.mem s.pc)) (handlerState s)) := by
  obtain ⟨hready, hrun⟩ := h
  simp only [step, engineStep, hready, hrun, if_true, hpre, fetch_phase]
  rfl

/-! The hooks. -/

theorem isBreakpoint_iff (a : Word) (s : State) : isBreakpoint a s = true ↔ a ∈ s.breakpoints := by
  rw [isBreakpoint, List.contains_iff_mem]

/-- The three cases of R186 before an instruction. -/
theorem preHook_fetch_of_noDebugStop (h : NoDebugStop s) : preHook (fetch s) = fetch s := by
  rcases preHook_cases (fetch s) with hpre | ⟨hon, hbp, -⟩ | ⟨hon, -, hzero, -⟩
  · exact hpre
  · rcases h with hoff | ⟨hno, -⟩
    · cases hoff.symm.trans hon
    · exact absurd ((isBreakpoint_iff _ _).mp hbp) hno
  · rcases h with hoff | ⟨-, hne⟩
    · cases hoff.symm.trans hon
    · exact absurd hzero hne

theorem preHook_fetch_of_breakpoint (hon : s.debuggerEnabled = true) (hbp : s.pc ∈ s.breakpoints) :
    preHook (fetch s) = debugEnter (some s.pc) (fetch s) := by
  have hbp' : isBreakpoint (fetch s).fetchAddr (fetch s) = true := (isBreakpoint_iff _ _).mpr hbp
  rw [preHook, fetch_debuggerEnabled, if_pos hon, if_pos hbp', fetch_fetchAddr]

theorem preHook_fetch_of_budget (hon : s.debuggerEnabled = true) (hno : s.pc ∉ s.breakpoints) (hzero : s.debuggerSteps = 0) :
    preHook (fetch s) = debugEnter none { fetch s with debuggerSteps := -1 } := by
  have hno' : ¬ isBreakpoint (fetch s).fetchAddr (fetch s) = true := mt (isBreakpoint_iff _ _).mp hno
  rw [preHook, fetch_debuggerEnabled, if_pos hon, if_neg hno', fetch_debuggerSteps, if_pos hzero]
  rfl

/-- The hook stops the step, with at most the budget changed besides the fetch. -/
theorem noDebugStop_or_stop (s : State) : NoDebugStop s ∨
    ∃ m n, preHook (fetch s) = debugEnter m { fetch s with debuggerSteps := n } := by
  cases hon : s.debuggerEnabled
  · exact .inl (.inl hon)
  · by_cases hbp : s.pc ∈ s.breakpoints
    · exact .inr ⟨_, s.debuggerSteps, preHook_fetch_of_breakpoint hon hbp⟩
    · by_cases hzero : s.debuggerSteps = 0
      · exact .inr ⟨_, _, preHook_fetch_of_budget hon hbp hzero⟩
      · exact .inl (.inr ⟨hbp, hzero⟩)

theorem step_of_noDebugStop (h : AboutToStep s) (hno : NoDebugStop s) :
    step s = retire (exec (decode (readWord s.mem s.pc)) (handlerState s)) :=
  step_of_no_hook_stop h (preHook_fetch_of_noDebugStop hno)

theorem retire_next_eq_ite (t : State) : retire (.next t) =
    .next (if t.phase = .ready ∧ t.debuggerEnabled = true ∧ 0 < t.debuggerSteps
      then { t with debuggerSteps := t.debuggerSteps - 1 } else t) := by
  rw [retire_next, postHook]
  by_cases hready : t.phase = .ready <;> simp [hready]

theorem retire_of_unfinished (h : t.phase ≠ .ready) : retire (.next t) = .next t := by
  rw [retire_next, if_neg h]

theorem retire_of_disabled (h : t.debuggerEnabled = false) : retire (.next t) = .next t := by
  rw [retire_next, postHook_of_disabled t h, ite_self]

/-- Settles O42. -/
theorem stepRunsDecodedInstruction : Obligations.StepRunsDecodedInstruction := by
  rintro s i hgo hno rfl -
  obtain ⟨t, ht⟩ := exec_total (decode (readWord s.mem s.pc)) (handlerState s)
  refine ⟨t, ht, ?_⟩
  rw [step_of_noDebugStop hgo hno, ht, retire_next_eq_ite]

/-- With the debugger off the post-hook changes nothing (R88). -/
theorem step_of_disabled (h : AboutToStep s) (hoff : s.debuggerEnabled = false) :
    step s = exec (decode (readWord s.mem s.pc)) (handlerState s) := by
  obtain ⟨t, ht⟩ := exec_total (decode (readWord s.mem s.pc)) (handlerState s)
  obtain ⟨-, -, hdebugger, -⟩ := sameFixed_of_effect (exec_effect ht)
  rw [step_of_noDebugStop h (.inl hoff), ht, retire_of_disabled (hdebugger.trans hoff)]

/-- Settles O43. -/
theorem stepWithoutDebugger : Obligations.StepWithoutDebugger := by
  intro s hgo hoff
  rw [step_of_disabled hgo hoff, handlerState, add_eq_ofNat]
  rfl

/-! Where a step stands after an instruction, and the budget. -/

/-- An instruction completes or leaves one of the services held. -/
theorem phase_of_effect (h : Effect i s t) : t.phase = s.phase ∨ ∃ k, t.phase = .holding k := by
  cases h with
  | getcHeld => exact .inr ⟨_, rfl⟩
  | inHeld => exact .inr ⟨_, rfl⟩
  | stringHeld k => exact .inr ⟨k, rfl⟩
  | _ => exact .inl rfl

theorem phase_of_retire (h : retire (.next u) = .next t) : t.phase = u.phase := by
  obtain ⟨n, hn⟩ := retire_next_eq u
  cases hn.symm.trans h
  rfl

/-- Settles O45. -/
theorem preHookStopsTheStep : Obligations.PreHookStopsTheStep := by
  intro s hgo
  refine ⟨fun hon hbp => ?_, fun hon hno hzero => ?_, fun hno t m hstep hphase => ?_⟩
  · have hpre := preHook_fetch_of_breakpoint hon hbp
    rw [step_of_hook_stop hgo (congrArg State.phase hpre), hpre]
    rfl
  · have hpre := preHook_fetch_of_budget hon hno hzero
    rw [step_of_hook_stop hgo (congrArg State.phase hpre), hpre]
    rfl
  · rw [step_of_noDebugStop hgo hno] at hstep
    obtain ⟨u, hexec, hretire⟩ := retire_eq_next hstep
    have hready : (handlerState s).phase = .ready := hgo.1
    rw [phase_of_retire hretire] at hphase
    rcases phase_of_effect (exec_effect hexec) with h | ⟨k, h⟩ <;> rw [h] at hphase
    · cases hready.symm.trans hphase
    · cases hphase

theorem sameFixed_of_continueHeld {k : Hold} (h : continueHeld k s = .next t) : SameFixed s t := by
  have hstring {k emit} (h : stringBody k emit s = .next t) : SameFixed s t := by
    obtain ⟨bs, hb | ⟨x, -, -, hb⟩ | ⟨-, hb⟩⟩ := stringBody_outcome k emit s <;>
      (rw [hb] at h; cases h; exact ⟨rfl, rfl, rfl, rfl, rfl, rfl⟩)
  cases k with
  | getc =>
    rcases getcBody_cases s with ⟨-, hb⟩ | ⟨c, rest, -, hb⟩ <;>
      (rw [continueHeld, hb] at h; cases h; exact ⟨rfl, rfl, rfl, rfl, rfl, rfl⟩)
  | inp =>
    rcases inBody_cases s with ⟨-, hb⟩ | ⟨c, rest, -, hb⟩ <;>
      (rw [continueHeld, hb] at h; cases h; exact ⟨rfl, rfl, rfl, rfl, rfl, rfl⟩)
  | puts | putsp => exact hstring h

/-- What a step from `s` to `t` has done to the budget: a completed one has taken one off a positive budget, one that leaves
a service held has taken nothing (R187). -/
def BudgetSpent (s t : State) : Prop :=
  (t.phase = .ready → t.debuggerSteps =
      if s.debuggerEnabled = true ∧ 0 < s.debuggerSteps then s.debuggerSteps - 1 else s.debuggerSteps) ∧
    (∀ k, t.phase = .holding k → t.debuggerSteps = s.debuggerSteps)

theorem budget_of_retire (hfixed : SameFixed s u) (hretire : retire (.next u) = .next t) :
    BudgetSpent s t := by
  obtain ⟨-, -, hon, hsteps, -, -⟩ := hfixed
  rw [BudgetSpent, ← hon, ← hsteps, phase_of_retire hretire]
  refine ⟨fun hready => ?_, fun k hheld => ?_⟩
  · rw [retire_next, if_pos hready] at hretire
    cases hretire
    exact postHook_debuggerSteps u
  · rw [retire_of_unfinished (by simp [hheld])] at hretire
    cases hretire
    rfl

theorem budget_of_runInstruction (h : runInstruction s = .next t) : BudgetSpent s t := by
  obtain ⟨u, hexec, hretire⟩ := retire_eq_next h
  exact budget_of_retire (s := advancePc s) (sameFixed_of_effect (exec_effect hexec)) hretire

/-- Settles O46, along the ways a step can go. -/
theorem postHookTakesOneOffTheBudget : Obligations.PostHookTakesOneOffTheBudget := by
  intro s t hrunning hstep
  rcases step_cases s with ⟨hidle, hs⟩ | ⟨hready, -, hphase, hs⟩ | ⟨hready, -, hphase, hs⟩ | ⟨-, hs⟩ | ⟨k, -, hs⟩ <;>
    rw [hs] at hstep
  · cases hstep
    rcases hidle with ⟨hready, hstopped⟩ | ⟨m, hm⟩
    · cases hstopped.symm.trans (hrunning hready)
    · simp [hm]
  · cases hstep
    rcases noDebugStop_or_stop s with hno | ⟨m, n, hpre⟩
    · exact absurd ((congrArg State.phase (preHook_fetch_of_noDebugStop hno)).trans hready) hphase
    · simp [hpre]
  · rcases noDebugStop_or_stop s with hno | ⟨m, n, hpre⟩
    · rw [preHook_fetch_of_noDebugStop hno] at hstep
      exact budget_of_runInstruction (s := fetch s) hstep
    · simp [hpre] at hphase
  · exact budget_of_runInstruction (s := toReady s) hstep
  · obtain ⟨u, hbody, hretire⟩ := retire_eq_next hstep
    exact budget_of_retire (s := toReady s) (sameFixed_of_continueHeld hbody) hretire

end Sys2Proof.Machine
end

section
/-! Steps compared: resumed after `DebugEnter`, with the debugger on and off, on machines a program cannot tell apart. -/

namespace Sys2Proof.Machine

variable {s t u v chosen : State}

theorem debugReturn_of_debugEnter {m : Option Word} (h : s.phase = .inDebugEnter m) : debugReturn chosen s =
    { chosen with
      ir := s.ir, fetchAddr := s.fetchAddr, debuggerEnabled := s.debuggerEnabled, eaPolicy := s.eaPolicy,
      phase := .resuming } := by
  rw [debugReturn, h]

/-- Settles O47. -/
theorem resumedStepRunsTheFetchedWord : Obligations.ResumedStepRunsTheFetchedWord := by
  intro s chosen m hblocked
  rw [debugReturn_of_debugEnter hblocked, step_of_resuming rfl]
  rfl

/-! The debugger changes no instruction. -/

theorem equalButDebugger_of_retire (h : EqualButDebugger u v) (hretire : retire (.next u) = .next t) :
    EqualButDebugger t v := by
  obtain ⟨n, hn⟩ := retire_next_eq u
  cases hn.symm.trans hretire
  exact h

/-- Handlers do not read the debugger's fields, and the post-hook changes no other. -/
theorem equalButDebugger_of_exec {i : Instr} {s' : State} (h : EqualButDebugger s s')
    (hstep : retire (exec i s) = .next t) (hoff : exec i s' = .next v) : EqualButDebugger t v := by
  have hcond : s.cond = s'.cond := (congrArg State.cond h :)
  obtain ⟨u, v', hu, hv', huv⟩ := keptByOps_equalButDebugger.exec i (.inr hcond) h
  cases hoff.symm.trans hv'
  rw [hu] at hstep
  exact equalButDebugger_of_retire huv hstep

theorem equalButDebugger_handlerState (s : State) :
    EqualButDebugger (handlerState s) (handlerState { s with debuggerEnabled := false }) := rfl

/-- The state a resumed step runs its handler in, where the host has changed nothing. -/
theorem equalButDebugger_resumed (hready : s.phase = .ready) (m : Option Word) (n : Int) :
    EqualButDebugger
      { debugEnter m { fetch s with debuggerSteps := n } with phase := .ready, pc := s.pc + 1#16 }
      (handlerState { s with debuggerEnabled := false }) :=
  (congrArg (fun p : Phase => ({ handlerState s with phase := p, debuggerEnabled := false, debuggerSteps := 0 } : State))
    hready.symm :)

/-- Settles O48: the three steps run one instruction on states that differ in the debugger's fields alone. -/
theorem debuggerDoesNotAlterSemantics : Obligations.DebuggerDoesNotAlterSemantics := by
  intro s t u hgo hstep hoff
  rw [step_of_disabled (s := { s with debuggerEnabled := false }) hgo rfl] at hoff
  rcases noDebugStop_or_stop s with hno | ⟨m, n, hpre⟩
  · have hstep' := hstep
    rw [step_of_noDebugStop hgo hno] at hstep'
    refine ⟨fun _ => equalButDebugger_of_exec (equalButDebugger_handlerState s) hstep' hoff, fun m hblocked => ?_⟩
    obtain ⟨-, -, hnever⟩ := preHookStopsTheStep s hgo
    exact absurd hblocked (hnever hno t m hstep)
  · rw [step_of_hook_stop hgo (congrArg State.phase hpre), hpre] at hstep
    cases hstep
    refine ⟨fun hne => absurd rfl (hne m), fun m' _ => ?_⟩
    obtain ⟨v, hv⟩ := step_total (debugReturn (debugEnter m { fetch s with debuggerSteps := n })
      (debugEnter m { fetch s with debuggerSteps := n }))
    refine ⟨v, hv, ?_⟩
    rw [resumedStepRunsTheFetchedWord _ _ m rfl] at hv
    exact equalButDebugger_of_exec (equalButDebugger_resumed hgo.1 m n) hv hoff

/-! Noninterference. -/

/-- Settles O52: with the debugger off both steps run the same instruction, on states that a program cannot tell apart. -/
theorem programSeesOnlyItsView : Obligations.ProgramSeesOnlyItsView := by
  intro s t u v hs ht hsoff htoff hpolicy hview hu hv
  have hpc : s.pc = t.pc := congrArg ProgramView.pc hview
  have hmem : s.mem = t.mem := congrArg ProgramView.mem hview
  have hcond : (handlerState s).cond = (handlerState t).cond := congrArg ProgramView.cond hview
  have hsame : SameToProgram (handlerState s) (handlerState t) :=
    ⟨congrArg (fun p : ProgramView => { p with pc := p.pc + 1#16 }) hview, hpolicy, hs.2.trans ht.2.symm,
      hs.1.trans ht.1.symm⟩
  rw [step_of_disabled hs hsoff, hmem, hpc] at hu
  rw [step_of_disabled ht htoff] at hv
  obtain ⟨u', v', hu', hv', hview', -, hrun, hphase⟩ := keptByOps_sameToProgram.exec _ (.inr hcond) hsame
  cases hu.symm.trans hu'
  cases hv.symm.trans hv'
  exact ⟨hview', hrun, hphase⟩

end Sys2Proof.Machine
end

section
/-! Held GETC and IN (10_state.md R22): what the host appends while the service waits is what it would have found. -/

namespace Sys2Proof.Machine

variable {s t u : State}

theorem toReady_of_ready (h : s.phase = .ready) : toReady s = s := by
  rw [toReady, ← h]

/-- `t` stands held in GETC or IN, and its service is carried on in `u`, with no input. -/
structure WaitsIn (k : Hold) (u t : State) : Prop where
  service : k = .getc ∨ k = .inp
  stands : t = { u with phase := .holding k }
  ready : u.phase = .ready
  noInput : u.cin = []

/-! From the instruction, or from a service held already, to the waiting state. -/

theorem waitsIn_of_exec {i : Instr} {k : Hold} (hready : s.phase = .ready) (hcin : s.cin = [])
    (hk : k = .getc ∨ k = .inp) (hexec : exec i s = .next t) (hheld : t.phase = .holding k) :
    ∃ u, WaitsIn k u t ∧ ∀ b, exec i (supplyInput b s) = continueHeld k (supplyInput b u) := by
  have hne : s.phase ≠ .holding k := by simp [hready]
  cases exec_effect hexec with
  | getcHeld =>
    cases hheld
    exact ⟨linkReturn s, ⟨hk, rfl, hready, hcin⟩, fun _ => rfl⟩
  | inHeld =>
    cases hheld
    exact ⟨consoleOut Config.inPrompt (linkReturn s), ⟨hk, rfl, hready, hcin⟩, fun _ => rfl⟩
  | stringHeld k' hk' =>
    cases hheld
    rcases hk' with rfl | rfl <;> simp at hk
  | _ => exact absurd hheld hne

theorem waitsIn_of_continueHeld {k k' : Hold} (hready : s.phase = .ready) (hcin : s.cin = [])
    (hk : k = .getc ∨ k = .inp) (hbody : continueHeld k' s = .next t) (hheld : t.phase = .holding k) :
    k' = k ∧ WaitsIn k s t := by
  have hne : s.phase ≠ .holding k := by simp [hready]
  have hstring {emit} (hk' : k' = .puts ∨ k' = .putsp) (h : stringBody k' emit s = .next t) : False := by
    obtain ⟨bs, hb | ⟨x, -, -, hb⟩ | ⟨-, hb⟩⟩ := stringBody_outcome k' emit s <;> (rw [hb] at h; cases h)
    · exact hne hheld
    · exact hne hheld
    · cases hheld
      rcases hk' with rfl | rfl <;> simp at hk
  cases k' with
  | getc =>
    cases (getcBody_of_nil hcin).symm.trans hbody
    cases hheld
    exact ⟨rfl, hk, rfl, hready, hcin⟩
  | inp =>
    cases (inBody_of_nil hcin).symm.trans hbody
    cases hheld
    exact ⟨rfl, hk, rfl, hready, hcin⟩
  | puts => exact (hstring (.inl rfl) hbody).elim
  | putsp => exact (hstring (.inr rfl) hbody).elim

theorem eq_of_retire_holding {k : Hold} (hretire : retire (.next u) = .next t) (hheld : t.phase = .holding k) :
    t = u := by
  rw [phase_of_retire hretire] at hheld
  rw [retire_of_unfinished (by simp [hheld])] at hretire
  cases hretire
  rfl

theorem waitsIn_of_runInstruction {k : Hold} (hready : s.phase = .ready) (hcin : s.cin = [])
    (hk : k = .getc ∨ k = .inp) (hrun : runInstruction s = .next t) (hheld : t.phase = .holding k) :
    ∃ u, WaitsIn k u t ∧ ∀ b, runInstruction (supplyInput b s) = retire (continueHeld k (supplyInput b u)) := by
  obtain ⟨u, hexec, hretire⟩ := retire_eq_next hrun
  obtain rfl := eq_of_retire_holding hretire hheld
  obtain ⟨w, hwaits, hsupplied⟩ := waitsIn_of_exec (s := advancePc s) hready hcin hk hexec hheld
  exact ⟨w, hwaits, fun b => congrArg retire (hsupplied b)⟩

/-- Whatever step leaves the service held, the same step with a byte there from the start is the service carried on. -/
theorem waitsIn_of_step {k : Hold} (hcin : s.cin = []) (hk : k = .getc ∨ k = .inp) (hstep : step s = .next t)
    (hheld : t.phase = .holding k) :
    ∃ u, WaitsIn k u t ∧ ∀ b, step (supplyInput b s) = retire (continueHeld k (supplyInput b u)) := by
  rcases step_cases s with ⟨hidle, hs⟩ | ⟨hready, hrunning, hphase, hs⟩ | ⟨hready, hrunning, hphase, hs⟩ | ⟨hresuming, hs⟩ |
      ⟨k', hholding, hs⟩ <;> rw [hs] at hstep
  · cases hstep
    rcases hidle with ⟨hready, -⟩ | ⟨m, hm⟩
    · cases hready.symm.trans hheld
    · cases hm.symm.trans hheld
  · cases hstep
    rcases noDebugStop_or_stop s with hno | ⟨m, n, hpre⟩
    · exact absurd ((congrArg State.phase (preHook_fetch_of_noDebugStop hno)).trans hready) hphase
    · cases (congrArg State.phase hpre).symm.trans hheld
  · rcases noDebugStop_or_stop s with hno | ⟨m, n, hpre⟩
    · rw [preHook_fetch_of_noDebugStop hno] at hstep
      obtain ⟨u, hwaits, hsupplied⟩ := waitsIn_of_runInstruction (s := fetch s) hready hcin hk hstep hheld
      refine ⟨u, hwaits, fun b => ?_⟩
      rw [step_of_noDebugStop (s := supplyInput b s) ⟨hready, hrunning⟩ hno]
      exact hsupplied b
    · cases (congrArg State.phase hpre).symm.trans hphase
  · obtain ⟨u, hwaits, hsupplied⟩ := waitsIn_of_runInstruction (s := toReady s) rfl hcin hk hstep hheld
    refine ⟨u, hwaits, fun b => ?_⟩
    rw [step_of_resuming (s := supplyInput b s) hresuming]
    exact hsupplied b
  · obtain ⟨u, hbody, hretire⟩ := retire_eq_next hstep
    obtain rfl := eq_of_retire_holding hretire hheld
    obtain ⟨rfl, hwaits⟩ := waitsIn_of_continueHeld (s := toReady s) rfl hcin hk hbody hheld
    refine ⟨toReady s, hwaits, fun b => ?_⟩
    rw [step_of_holding (s := supplyInput b s) hholding]
    rfl

/-! The waiting state's own steps. -/

theorem continueHeld_of_nil {k : Hold} (hk : k = .getc ∨ k = .inp) (hcin : s.cin = []) :
    continueHeld k s = .next { s with phase := .holding k } := by
  rcases hk with rfl | rfl
  · exact getcBody_of_nil hcin
  · exact inBody_of_nil hcin

theorem continueHeld_of_cons {k : Hold} {c : Byte} {rest : List Byte} (hk : k = .getc ∨ k = .inp) (hcin : s.cin = c :: rest) :
    ∃ t, continueHeld k s = .next t ∧ t.phase = s.phase := by
  rcases hk with rfl | rfl
  · exact ⟨_, getcBody_of_cons hcin, rfl⟩
  · exact ⟨_, inBody_of_cons hcin, rfl⟩

theorem step_of_waitsIn {k : Hold} (h : WaitsIn k u t) : step t = .next t := by
  obtain ⟨hk, rfl, hready, hcin⟩ := h
  have hbody : toReady { u with phase := .holding k } = u := toReady_of_ready hready
  rw [step_of_holding rfl, hbody, continueHeld_of_nil hk hcin, retire_of_unfinished (by simp)]

theorem step_supplied_of_waitsIn {k : Hold} (h : WaitsIn k u t) (b : Byte) :
    step (supplyInput b t) = retire (continueHeld k (supplyInput b u)) := by
  obtain ⟨hk, rfl, hready, hcin⟩ := h
  have hbody : toReady (supplyInput b { u with phase := .holding k }) = supplyInput b u :=
    congrArg (supplyInput b) (toReady_of_ready hready)
  rw [step_of_holding (k := k) rfl, hbody]

theorem supplied_completes {k : Hold} (h : WaitsIn k u t) (b : Byte) :
    ∃ v, retire (continueHeld k (supplyInput b u)) = .next v ∧ v.phase = .ready := by
  obtain ⟨hk, -, hready, hcin⟩ := h
  have hinput : (supplyInput b u).cin = b :: [] := by rw [supplyInput_cin, hcin, List.nil_append]
  obtain ⟨w, hw, hphase⟩ := continueHeld_of_cons hk hinput
  obtain ⟨v, hv⟩ := retire_total ⟨w, hw⟩
  refine ⟨v, hv, ?_⟩
  rw [hw] at hv
  exact (phase_of_retire hv).trans (hphase.trans hready)

/-- Settles O31. -/
theorem heldInputServiceCompletesOnAByte : Obligations.HeldInputServiceCompletesOnAByte := by
  intro s t b hcin hstep hheld
  obtain ⟨k, hk, hphase⟩ : ∃ k, (k = .getc ∨ k = .inp) ∧ t.phase = .holding k := by
    rcases hheld with h | h
    · exact ⟨.getc, .inl rfl, h⟩
    · exact ⟨.inp, .inr rfl, h⟩
  obtain ⟨u, hwaits, hsupplied⟩ := waitsIn_of_step hcin hk hstep hphase
  have hnow := step_supplied_of_waitsIn hwaits b
  refine ⟨step_of_waitsIn hwaits, hnow.trans (hsupplied b).symm, ?_⟩
  rw [hnow]
  exact supplied_completes hwaits b

end Sys2Proof.Machine
end
